-- ==== Sys2Proof/Word.lean ====
section
/-! DEFINITION. The plain words of the block: a byte, a 32-bit count, a line level. -/

namespace Sys2Proof

/-- A byte of the output stream and the shift register (30_encoding.md R63, 10_state.md R24). -/
abbrev Byte := BitVec 8

/-- A word of `CNT_WIDTH` = 32 bits: the counter, the request word (00_scope.md R8, D6). -/
abbrev Word := BitVec 32

/-- A level of the line, and any one-bit port: `true` is 1, high (00_scope.md R14). -/
abbrev Level := Bool

end Sys2Proof
end

