-- ==== Sys2Proof/Config.lean ====
section
/-! DEFINITION. What an implementation fixes (00_scope.md R8), the input ports of one tick, and the free values. -/

namespace Sys2Proof

/-- `FRAME_BITS`: bits per transaction (00_scope.md R8, fixed). -/
def frameBits : Nat := 40

/-- `BYTE_BITS`: bits per pushed unit (00_scope.md R8, fixed). -/
def byteBits : Nat := 8

/-- `FRAME_BYTES`: bytes per transaction (00_scope.md R8, fixed). -/
def frameBytes : Nat := 5

/-- `N_WAITS`: bounded waits on the success path, 3 + `FRAME_BITS` (00_scope.md R8; 90_conflicts.md C1). -/
def nWaits : Nat := 3 + frameBits

/-- `FIFO_DEPTH`: bytes the output FIFO holds (00_scope.md R8, D13). -/
def fifoDepth : Nat := 5

/-- The parameters of the block (00_scope.md R8). `B` and `S` are words of `CNT_WIDTH` bits because `cnt`,
which they are loaded into, is one (log 2). -/
structure Config where
  /-- `WAIT_BUDGET`, written `B`: polls allowed in one bounded wait. -/
  waitBudget : Word
  /-- `SETTLE_TICKS`, written `S`: ticks from the poll that detects a fall to the sample. -/
  settleTicks : Word
  /-- `T_TICK` in nanoseconds. No operation reads it. -/
  tickNs : Nat
  deriving DecidableEq, Repr, Inhabited

/-- The spec's defaults: `B` = 31, `S` = 25, `T_TICK` = 2 us (00_scope.md R8). -/
def Config.default : Config := { waitBudget := 31, settleTicks := 25, tickNs := 2000 }

/-- The parameters of the driver, both OPEN: no default is chosen (00_scope.md R8; D26, D27). -/
structure DriverConfig where
  /-- `TRIGGER_TICKS`: the request word the driver sends (44_host_driver_contract.md R133). -/
  triggerTicks : Word
  /-- `MIN_INTERVAL` in nanoseconds, a duty of the caller (44_host_driver_contract.md R132). -/
  minIntervalNs : Nat
  deriving DecidableEq, Repr, Inhabited

/-- The input ports at one tick (20_memory.md R41). -/
structure Inputs where
  /-- `rst`: synchronous reset, active high. -/
  rst : Bool
  /-- `line_i`: the level of the line. -/
  lineI : Level
  /-- `req_valid`: the host presents a request. -/
  reqValid : Bool
  /-- `req_ticks`: the request word. -/
  reqTicks : Word
  /-- `out_ready`: the host takes a byte. -/
  outReady : Bool
  deriving DecidableEq, Repr, Inhabited

/-- FREE VALUE (log 1): the input ports at a tick beyond the listed ones. The environment is an oracle under no
law (00_scope.md R10; 93_implementation_defined.md U9). -/
opaque Config.freeInputs : Nat → Inputs

/-- FREE VALUE (log 6): `out_byte` at a tick with `out_valid` = 0 (20_memory.md R42; 93_implementation_defined.md U2). -/
opaque Config.freeOutByte : Nat → Byte

end Sys2Proof
end

