-- ==== Sys2Proof/Syntax.lean ====
section
/-! DEFINITION. The operations of the block, one constructor per row of spec/opcode_table.json, the formats that
select them, the eight control states, and the stimulus scripts that stand for programs (30_encoding.md). -/

namespace Sys2Proof

/-- The eight control states (10_state.md R21). -/
inductive Ctrl where
  | idle | trigger | awaitRise1 | awaitFall | awaitRise2 | bitWait | settle | error
  deriving DecidableEq, Repr, Inhabited

/-- The 19 FSM operations and the one host-port operation (30_encoding.md R66). An operation has no field: its
operands are the registers and the input ports of its tick (40_transaction_control.md R80). -/
inductive Instr where
  | idleWait | start | trigHold | trigRelease
  | rise1Hit | rise1Poll | rise1Timeout
  | fallHit | fallPoll | fallTimeout
  | rise2Hit | rise2Poll | rise2Timeout
  | bitHit | bitPoll | bitTimeout
  | settleHold | sample | errFill
  | pop
  deriving DecidableEq, Repr, Inhabited

/-- The two formats that select an operation (30_encoding.md R60). -/
inductive Format where
  /-- The dispatch word `state[2:0] acc hit tc`, 6 bits. -/
  | dispatch
  /-- The port word `out_valid out_ready`, 2 bits. -/
  | port
  deriving DecidableEq, Repr, Inhabited

/-- The width of a format in bits (30_encoding.md R60). -/
def Format.width : Format → Nat
  | .dispatch => 6
  | .port => 2

/-- A word in one of the two formats. -/
structure OpWord where
  format : Format
  bits : Nat
  deriving DecidableEq, Repr, Inhabited

/-- One row of the operation table: a word `w` of the row's format selects the operation when
`w & mask = value` (30_encoding.md R64, R66). -/
structure Row where
  format : Format
  value : Nat
  mask : Nat
  deriving DecidableEq, Repr, Inhabited

/-- One item of a LINE line: a run, or a macro of 30_encoding.md R71. -/
inductive LineItem where
  /-- `H*k` (level high) or `L*k` (level low). DESIGN CHOICE (log 8): `k` may be 0, where the spec gives no bound. -/
  | run (level : Level) (k : Nat)
  /-- `CELL(b)` -/
  | cell (b : Bool)
  /-- `BYTE(v)` -/
  | byte (v : Byte)
  /-- `FRAME(v0,v1,v2,v3,v4)` -/
  | frame (v0 v1 v2 v3 v4 : Byte)
  /-- `PULSE(w)` -/
  | pulse (w : Nat)
  deriving DecidableEq, Repr, Inhabited

/-- One line of a stimulus script (30_encoding.md R70). -/
inductive ScriptLine where
  /-- `PARAM B=b S=s`, either field of which may be absent (95_test_vectors.md has `PARAM B=1` and `PARAM S=15`). -/
  | param (b s : Option Word)
  /-- `REQ n FROM t` -/
  | req (n : Word) (t : Nat)
  /-- `LINE item item ...` -/
  | line (items : List LineItem)
  /-- `POP AT t,t,...` -/
  | popAt (ts : List Nat)
  /-- `POP FROM t` -/
  | popFrom (t : Nat)
  /-- `RESET AT t` -/
  | resetAt (t : Nat)
  deriving DecidableEq, Repr, Inhabited

/-- A stimulus script: what a test writes in place of a program (30_encoding.md R70). -/
abbrev Script := List ScriptLine

end Sys2Proof
end

