-- ==== Sys2Proof/WellFormed.lean ====
section
/-! DEFINITION. The checks on terms. An `Instr` has no field, so there is nothing to check in one: no operation is
reserved or illegal (30_encoding.md R68). What can be ill-formed is a word, a row, a configuration, a script. -/

namespace Sys2Proof

/-- A word fits its format's width (30_encoding.md R60). -/
def OpWord.wf (w : OpWord) : Bool := w.bits < 2 ^ w.format.width

/-- A row's value and mask fit the format, and the value has no bit the mask ignores (30_encoding.md R66). -/
def Row.wf (r : Row) : Bool :=
  r.mask < 2 ^ r.format.width && r.value &&& r.mask == r.value

/-- `B >= 1` and `S >= 1` (00_scope.md R8). -/
def Config.wf (c : Config) : Bool := c.waitBudget != 0 && c.settleTicks != 0

/-- The source's constraint on the settle delay, `28 us < S * T_TICK < 70 us` (42_bit_decode.md R116): a hypothesis a
claim may take, not a check of the hardware. -/
def Config.settleBetweenPulses (c : Config) : Bool :=
  28000 < c.settleTicks.toNat * c.tickNs && c.settleTicks.toNat * c.tickNs < 70000

/-- A PARAM line gives a legal configuration (an absent field is no violation: its default stands), and a LINE line is
not empty. DESIGN CHOICE (log 8): no bound is put on the length of a run, since 30_encoding.md R70 puts none, so `H*0`,
`L*0` and `PULSE(0)` are well formed. -/
def ScriptLine.wf : ScriptLine → Bool
  | .param b s => b != some 0 && s != some 0
  | .line items => !items.isEmpty
  | .req _ _ | .popAt _ | .popFrom _ | .resetAt _ => true

/-- Is the line a PARAM line? -/
def ScriptLine.isParam : ScriptLine → Bool
  | .param _ _ => true
  | .req _ _ | .line _ | .popAt _ | .popFrom _ | .resetAt _ => false

/-- Is the line a REQ line? -/
def ScriptLine.isReq : ScriptLine → Bool
  | .req _ _ => true
  | .param _ _ | .line _ | .popAt _ | .popFrom _ | .resetAt _ => false

/-- Is the line a LINE line? -/
def ScriptLine.isLine : ScriptLine → Bool
  | .line _ => true
  | .param _ _ | .req _ _ | .popAt _ | .popFrom _ | .resetAt _ => false

/-- A script: every line well formed, PARAM at most once and first (93_implementation_defined.md U6), LINE at most
once (it gives `line_i` from tick 0 on, 30_encoding.md R70). -/
def Script.wf (sc : Script) : Bool :=
  sc.all ScriptLine.wf && !(sc.tail.any ScriptLine.isParam) && (sc.filter ScriptLine.isLine).length ≤ 1

end Sys2Proof
end

