-- ==== Sys2Proof/Decode.lean ====
section
/-! DEFINITION. The operation table of 30_encoding.md R66, the decoder read from it, and the encoder. -/

namespace Sys2Proof

/-- The code of a control state (30_encoding.md R61). -/
def Ctrl.code : Ctrl → BitVec 3
  | .idle => 0b000#3
  | .trigger => 0b001#3
  | .awaitRise1 => 0b010#3
  | .awaitFall => 0b011#3
  | .awaitRise2 => 0b100#3
  | .bitWait => 0b101#3
  | .settle => 0b110#3
  | .error => 0b111#3

/-- All control states, in the order of their codes. -/
def Ctrl.all : List Ctrl :=
  [.idle, .trigger, .awaitRise1, .awaitFall, .awaitRise2, .bitWait, .settle, .error]

/-- The control state of a code: all eight codes are used (10_state.md R21). -/
def Ctrl.ofCode (c : BitVec 3) : Ctrl := Ctrl.all.getD c.toNat .error

/-- The row of each operation (30_encoding.md R66, opcode_table.json). -/
def Instr.row : Instr → Row
  | .idleWait => ⟨.dispatch, 0x00, 0x3C⟩
  | .start => ⟨.dispatch, 0x04, 0x3C⟩
  | .trigHold => ⟨.dispatch, 0x08, 0x39⟩
  | .trigRelease => ⟨.dispatch, 0x09, 0x39⟩
  | .rise1Hit => ⟨.dispatch, 0x12, 0x3A⟩
  | .rise1Poll => ⟨.dispatch, 0x10, 0x3B⟩
  | .rise1Timeout => ⟨.dispatch, 0x11, 0x3B⟩
  | .fallHit => ⟨.dispatch, 0x1A, 0x3A⟩
  | .fallPoll => ⟨.dispatch, 0x18, 0x3B⟩
  | .fallTimeout => ⟨.dispatch, 0x19, 0x3B⟩
  | .rise2Hit => ⟨.dispatch, 0x22, 0x3A⟩
  | .rise2Poll => ⟨.dispatch, 0x20, 0x3B⟩
  | .rise2Timeout => ⟨.dispatch, 0x21, 0x3B⟩
  | .bitHit => ⟨.dispatch, 0x2A, 0x3A⟩
  | .bitPoll => ⟨.dispatch, 0x28, 0x3B⟩
  | .bitTimeout => ⟨.dispatch, 0x29, 0x3B⟩
  | .settleHold => ⟨.dispatch, 0x30, 0x39⟩
  | .sample => ⟨.dispatch, 0x31, 0x39⟩
  | .errFill => ⟨.dispatch, 0x38, 0x38⟩
  | .pop => ⟨.port, 0x3, 0x3⟩

/-- The operations in the order of the table. -/
def Instr.all : List Instr :=
  [.idleWait, .start, .trigHold, .trigRelease, .rise1Hit, .rise1Poll, .rise1Timeout] ++
  [.fallHit, .fallPoll, .fallTimeout, .rise2Hit, .rise2Poll, .rise2Timeout] ++
  [.bitHit, .bitPoll, .bitTimeout, .settleHold, .sample, .errFill, .pop]

/-- A word of the row's format whose masked bits are the row's value (30_encoding.md R64). -/
def Row.selects (r : Row) (w : OpWord) : Bool :=
  decide (r.format = w.format) && w.bits &&& r.mask == r.value

/-- The operation a dispatch word selects (30_encoding.md R64, R67). -/
def decodeDispatch (d : BitVec 6) : Option Instr :=
  Instr.all.find? fun i => i.row.selects ⟨.dispatch, d.toNat⟩

/-- The operation a port word selects: POP on `0b11`, none on the other three (30_encoding.md R66, R68). -/
def decodePort (p : BitVec 2) : Option Instr :=
  Instr.all.find? fun i => i.row.selects ⟨.port, p.toNat⟩

/-- Why a word is not decoded. -/
inductive DecodeReject where
  /-- The word does not fit its format. -/
  | tooWide (w : OpWord)
  /-- No row of the dispatch table matches; 30_encoding.md R67 says that there is no such word. -/
  | noDispatchRow (d : BitVec 6)
  /-- A port word other than `0b11`: legal, and it selects no operation (30_encoding.md R68). -/
  | noTransfer (p : BitVec 2)
  deriving DecidableEq, Repr

/-- The decoder: total on words of both formats, rejecting by name. -/
def decode (w : OpWord) : Except DecodeReject Instr :=
  if w.wf then
    match w.format with
    | .dispatch =>
      match decodeDispatch (BitVec.ofNat 6 w.bits) with
      | some i => .ok i
      | none => .error (.noDispatchRow (BitVec.ofNat 6 w.bits))
    | .port =>
      match decodePort (BitVec.ofNat 2 w.bits) with
      | some i => .ok i
      | none => .error (.noTransfer (BitVec.ofNat 2 w.bits))
  else .error (.tooWide w)

/-- The word of an operation whose ignored bits are those of `free` (30_encoding.md R68: the only don't-care bits are
those the masks ignore). -/
def encodeWith (i : Instr) (free : BitVec 6) : OpWord :=
  let r := i.row
  ⟨r.format, r.value ||| (free.toNat &&& (2 ^ r.format.width - 1 - r.mask))⟩

/-- The word of an operation, its ignored bits zero. -/
def encode (i : Instr) : OpWord := encodeWith i 0

/-- The format of a table word of `nbits` bits. The table numbers the bits of both formats from 0 and gives the format
in a column of its own, which the pair (`nbits`, `w`) does not carry: in whole bytes both formats have 8 bits. The
word 3 of 8 bits is read as POP's port word, every other one as a dispatch word (log 7). -/
def tableFormat (nbits w : Nat) : Format :=
  if nbits ≤ 2 then .port
  else if nbits = 6 then .dispatch
  else if w = 3 then .port
  else .dispatch

/-- The operation the decoder reads from a word numbered as spec/opcode_table.json numbers it. -/
def decodeTableWord (nbits w : Nat) : Option Instr :=
  (decode ⟨tableFormat nbits w, w⟩).toOption

end Sys2Proof
end

