-- ==== Sys2Proof/Machine/State.lean ====
section
/-! DEFINITION. The state of the block (10_state.md R20), the parameters of the instance, and the outside world as the
model holds it; the reasons a step can stop; the state after reset. -/

namespace Sys2Proof.Machine

/-- The machine: the five registers of 10_state.md R20, the parameters, and the model's own three fields (`inputs`,
`tick`, `popped`), which are the outside world and not the block's. -/
structure State where
  /-- The control state, the block's program counter (10_state.md R21). -/
  state : Ctrl
  /-- The down-counter of the trigger hold, the wait budget and the settle delay (10_state.md R22). -/
  cnt : Word
  /-- The number of bits of the transaction already shifted in (10_state.md R23). -/
  bitcnt : BitVec 6
  /-- The bits of the byte under construction (10_state.md R24). -/
  shreg : Byte
  /-- The output FIFO, oldest byte first (10_state.md R25). -/
  fifo : List Byte
  /-- The parameters, constant for the life of the instance (00_scope.md R8, 20_memory.md R54). -/
  cfg : Config
  /-- The model's own: the input ports of the coming ticks, this tick's first (log 1). -/
  inputs : List Inputs
  /-- The model's own: the number of this tick (00_scope.md R12; log 3). -/
  tick : Nat
  /-- The model's own: the bytes the host has taken, each with the tick of its POP, oldest first (log 4). -/
  popped : List (Nat × Byte)
  deriving DecidableEq, Repr, Inhabited

/-- The faults of the model. The block raises none: TimingFailure is an entry into Error, a next state
(60_exceptions.md R145). -/
inductive Fault where
  /-- Raised by `fifoPush`, for SAMPLE and ERR.FILL, when the FIFO already holds `FIFO_DEPTH` bytes. Safe: the spec
  gives such a push no effect and no run reaches it (10_state.md R30; log 5). -/
  | fifoOverflow
  deriving DecidableEq, Repr

/-- The refusals of the model. -/
inductive Refusal where
  /-- Raised by `exec` for an operation without a meaning. Safe. No arm raises it. -/
  | notModelled (mnemonic : String)
  /-- Raised by `step` for a dispatch word that no row matches. Safe: 30_encoding.md R67 says there is none and asks a
  model to end its match with a refusal, so that a mistake in the table shows. -/
  | noDispatchRow (d : BitVec 6)
  deriving DecidableEq, Repr

/-- The machine after reset (10_state.md R32): every register at the value of the spec, the default parameters
(00_scope.md R8; log 2), and the model's own fields empty (logs 1, 3, 4). -/
def State.reset : State :=
  { state := .idle, cnt := 0, bitcnt := 0, shreg := 0, fifo := [],
    cfg := Config.default, inputs := [], tick := 0, popped := [] }

end Sys2Proof.Machine
end

