-- ==== Sys2Proof/Machine/Operands.lean ====
section
/-! DEFINITION. What an operation reads: the input ports of the tick and the parameters; and what the ports show: the
Moore outputs (20_memory.md R42). -/

namespace Sys2Proof.Machine

/-- The input ports `k` ticks from now: the listed ones, then the free ones (log 1). -/
def State.inputAt (s : State) (k : Nat) : Inputs :=
  (s.inputs[k]?).getD (Config.freeInputs (s.tick + k))

/-- The input ports of this tick. -/
def State.now (s : State) : Inputs := s.inputAt 0

/-- The level of the line `k` ticks from now, `line_i(t + k)`. -/
def State.lineAt (s : State) (k : Nat) : Level := (s.inputAt k).lineI

/-- `s` with the input ports of this tick replaced. -/
def State.withNow (s : State) (i : Inputs) : State := { s with inputs := i :: s.inputs.tail }

/-- `ReqTake()`: the request word of this tick (00_scope.md R13). -/
def State.reqTake (s : State) : Word := s.now.reqTicks

/-- The budget counter's load `B` (00_scope.md R8). -/
def State.budget (s : State) : Word := s.cfg.waitBudget

/-- The settle counter's load `S` (00_scope.md R8). -/
def State.settleLoad (s : State) : Word := s.cfg.settleTicks

/-- `fifo_cnt`, the number of bytes in the FIFO (10_state.md R25). -/
def State.fifoCnt (s : State) : Nat := s.fifo.length

/-- `bitcnt[2:0]`, the position inside the current byte (10_state.md R23). -/
def State.bitPos (s : State) : BitVec 3 := s.bitcnt.extractLsb' 0 3

/-- `line_oe`: the block drives the line only in Trigger (20_memory.md R42). -/
def lineOe (s : State) : Bool := decide (s.state = .trigger)

/-- `line_o`: constant 0 (20_memory.md R42). -/
def lineO (_ : State) : Level := false

/-- `req_ready` (20_memory.md R42). -/
def reqReady (s : State) : Bool := decide (s.state = .idle) && s.fifoCnt == 0

/-- `out_valid` (20_memory.md R42). -/
def outValid (s : State) : Bool := decide (0 < s.fifoCnt)

/-- `out_byte`: the head of the FIFO; any value when there is none (20_memory.md R42; log 6). -/
def outByte (s : State) : Byte := s.fifo.head?.getD (Config.freeOutByte s.tick)

/-- `busy` (20_memory.md R42). -/
def busy (s : State) : Bool := decide (s.state ≠ .idle)

/-- DRIVE, the pair (`line_oe`, `line_o`) (30_encoding.md R72). -/
def drive (s : State) : Bool × Level := (lineOe s, lineO s)

/-- The wired-AND line that follows from the source's words (20_memory.md R45): low when the block or the sensor drives
low. An environment may use it; no operation does. -/
def wiredLine (s : State) (sensorDrivesLow : Bool) : Level := !(lineOe s || sensorDrivesLow)

end Sys2Proof.Machine
end

