-- ==== Sys2Proof/Machine/Flags.lean ====
section
/-! DEFINITION. The block has no flags (10_state.md R26). What selects an operation is three condition bits, computed
every tick and stored nowhere (30_encoding.md R65), and the two words formed from them (R64, R60). -/

namespace Sys2Proof.Machine

/-- The level a wait state waits for; 1 for the other four states, where `hit` is a don't-care (30_encoding.md R65). -/
def tgt : Ctrl → Level
  | .awaitRise1 => true
  | .awaitFall => false
  | .awaitRise2 => true
  | .bitWait => false
  | .idle => true
  | .trigger => true
  | .settle => true
  | .error => true

/-- `acc`: a request is presented and the output is drained (30_encoding.md R65). -/
def acc (s : State) : Bool := s.now.reqValid && s.fifoCnt == 0

/-- `hit`: this tick's poll reads the awaited level (30_encoding.md R65). -/
def hit (s : State) : Bool := s.now.lineI == tgt s.state

/-- `tc`: this is the counter's last tick (30_encoding.md R65). -/
def tc (s : State) : Bool := decide (s.cnt ≤ 1)

/-- The dispatch word `state[2:0] acc hit tc` (30_encoding.md R64). -/
def dispatchWord (s : State) : BitVec 6 :=
  ((s.state.code ++ BitVec.ofBool (acc s)) ++ BitVec.ofBool (hit s)) ++ BitVec.ofBool (tc s)

/-- The port word `out_valid out_ready` (30_encoding.md R60, R66). -/
def portWord (s : State) : BitVec 2 := BitVec.ofBool (outValid s) ++ BitVec.ofBool s.now.outReady

/-- The FSM operation this tick's dispatch word selects. -/
def fsmOp (s : State) : Option Instr := decodeDispatch (dispatchWord s)

/-- The host-port operation this tick's port word selects. -/
def portOp (s : State) : Option Instr := decodePort (portWord s)

end Sys2Proof.Machine
end

