-- ==== Sys2Proof/Machine/Ops.lean ====
section
/-! DEFINITION. The shared operations: register writes, the FIFO, the one exception and the way out of it, SHIFTIN,
reset, and the passing of a tick. -/

namespace Sys2Proof.Machine

/-- The answer of a meaning and of a step. -/
abbrev Answer := Host.Outcome State Fault Refusal

/-- Go on with `f` from a next state; a stop stays. -/
def andThen (o : Answer) (f : State → Answer) : Answer :=
  match o with
  | .next s => f s
  | .fault r => .fault r
  | .refused r => .refused r

/-- `state <- c` -/
def State.goto (s : State) (c : Ctrl) : State := { s with state := c }

/-- `cnt <- v` -/
def State.setCnt (s : State) (v : Word) : State := { s with cnt := v }

/-- `bitcnt <- v` -/
def State.setBitcnt (s : State) (v : BitVec 6) : State := { s with bitcnt := v }

/-- `shreg <- v` -/
def State.setShreg (s : State) (v : Byte) : State := { s with shreg := v }

/-- `cnt <- cnt - 1`, the one decrement of the HOLD and POLL operations (10_state.md R22). -/
def State.countDown (s : State) : State := s.setCnt (s.cnt - 1)

/-- `FifoPush(v)`: append at the tail (00_scope.md R13, 10_state.md R25). The FIFO holds `FIFO_DEPTH` bytes; a push into
a full one, which no run reaches (10_state.md R30), is a fault (log 5). -/
def fifoPush (v : Byte) (s : State) : Answer :=
  if s.fifoCnt < fifoDepth then .next { s with fifo := s.fifo ++ [v] } else .fault .fifoOverflow

/-- `FifoPop()`: remove the head byte and hand it to the host, with the tick (00_scope.md R13, 43 R123; log 4). With an
empty FIFO there is no pop and nothing happens. -/
def fifoPop (s : State) : State :=
  match s.fifo with
  | [] => s
  | b :: rest => { s with fifo := rest, popped := s.popped ++ [(s.tick, b)] }

/-- Entry into Error, `raise TimingFailure(w)`: `state <- Error; cnt <- 0`, everything else kept (00_scope.md R13,
60_exceptions.md R145, R150). The wait ordinal `w` is a label that no register stores (60_exceptions.md R146). -/
def raiseTimingFailure (_w : Nat) (s : State) : State := (s.goto .error).setCnt 0

/-- The wait ordinal of a timeout in this state: which of the 43 bounded waits it is (60_exceptions.md R146); none
outside the four wait states. -/
def waitOrdinal (s : State) : Option Nat :=
  match s.state with
  | .awaitRise1 => some 1
  | .awaitFall => some 2
  | .awaitRise2 => some 3
  | .bitWait => some (4 + s.bitcnt.toNat)
  | .idle => none
  | .trigger => none
  | .settle => none
  | .error => none

/-- The byte after a shift: the new bit enters at bit 0 (42_bit_decode.md R112). -/
def shifted (v : Byte) (b : Bool) : Byte := (v <<< 1) ||| (BitVec.ofBool b).zeroExtend 8

/-- The count of a shift, and the end of the transaction at the fortieth: back to Idle, which is also the only way out
of Error (42_bit_decode.md R112; 60_exceptions.md R152). -/
def countBit (s : State) : State :=
  if s.bitcnt = 39 then ((s.setBitcnt 0).goto .idle).setCnt 0
  else s.setBitcnt (s.bitcnt + 1)

/-- `SHIFTIN(b)` (42_bit_decode.md R112). It runs after its caller's writes of `state` and `cnt`, so that its own win. -/
def shiftIn (b : Bool) (s : State) : Answer :=
  if s.bitPos = 7 then
    andThen (fifoPush (shifted s.shreg b) s) fun t => .next (countBit (t.setShreg 0))
  else .next (countBit (s.setShreg (shifted s.shreg b)))

/-- The registers at their reset values (10_state.md R32, 70_reset_and_hazards.md R165); the parameters and the outside
world are not the reset's. -/
def State.resetRegs (s : State) : State :=
  { s with state := .idle, cnt := 0, bitcnt := 0, shreg := 0, fifo := [] }

/-- The tick is over: the next tick's inputs are at the ports (00_scope.md R12). -/
def State.advance (s : State) : State := { s with inputs := s.inputs.tail, tick := s.tick + 1 }

end Sys2Proof.Machine
end

