-- ==== Sys2Proof/Machine/BitDecode.lean ====
section
/-! DEFINITION. Bit decode: the settle delay and the sample (42_bit_decode.md). -/

namespace Sys2Proof.Machine

/-- SETTLE.HOLD: let the settle delay run (R111). -/
def execSettleHold (s : State) : Answer := .next s.countDown

/-- SAMPLE: read the line once, shift the level in, re-arm the fall wait; after bit 39 SHIFTIN's writes of `state` and
`cnt` win (R113, R112). -/
def execSample (s : State) : Answer := shiftIn s.now.lineI ((s.goto .bitWait).setCnt s.budget)

end Sys2Proof.Machine
end

