-- ==== Sys2Proof/Machine/BoundedWaits.lean ====
section
/-! DEFINITION. The four bounded waits: AwaitRise1, AwaitFall, AwaitRise2, BitWait (41_bounded_waits.md). -/

namespace Sys2Proof.Machine

/-- RISE1.HIT: the released line is seen high (R93). -/
def execRise1Hit (s : State) : Answer := .next ((s.setCnt s.budget).goto .awaitFall)

/-- RISE1.POLL: the line is still low and polls remain (R94). -/
def execRise1Poll (s : State) : Answer := .next s.countDown

/-- RISE1.TIMEOUT: the line never rose within the budget; wait ordinal 1 (R95). -/
def execRise1Timeout (s : State) : Answer := .next (raiseTimingFailure 1 s)

/-- FALL.HIT: the sensor is seen pulling the line low (R96). -/
def execFallHit (s : State) : Answer := .next ((s.setCnt s.budget).goto .awaitRise2)

/-- FALL.POLL: the line is still high and polls remain (R97). -/
def execFallPoll (s : State) : Answer := .next s.countDown

/-- FALL.TIMEOUT: the sensor never acknowledged; wait ordinal 2 (R98). -/
def execFallTimeout (s : State) : Answer := .next (raiseTimingFailure 2 s)

/-- RISE2.HIT: the line is seen high again (R99). -/
def execRise2Hit (s : State) : Answer := .next ((s.setCnt s.budget).goto .bitWait)

/-- RISE2.POLL: the line is still low and polls remain (R100). -/
def execRise2Poll (s : State) : Answer := .next s.countDown

/-- RISE2.TIMEOUT: the acknowledge-low never ended within the budget; wait ordinal 3 (R101). -/
def execRise2Timeout (s : State) : Answer := .next (raiseTimingFailure 3 s)

/-- BIT.HIT: the fall that starts a data bit is seen; start the settle delay (R102). -/
def execBitHit (s : State) : Answer := .next ((s.setCnt s.settleLoad).goto .settle)

/-- BIT.POLL: the line is still high and polls remain (R103). -/
def execBitPoll (s : State) : Answer := .next s.countDown

/-- BIT.TIMEOUT: no fall came for bit number `bitcnt`; wait ordinal 4 + `bitcnt` (R104). -/
def execBitTimeout (s : State) : Answer := .next (raiseTimingFailure (4 + s.bitcnt.toNat) s)

end Sys2Proof.Machine
end

