-- ==== Sys2Proof/Machine/OutputPort.lean ====
section
/-! DEFINITION. The Error state's zero fill and the output port (43_error_fill_and_output.md). -/

namespace Sys2Proof.Machine

/-- ERR.FILL: emit one zero bit (R121). -/
def execErrFill (s : State) : Answer := shiftIn false s

/-- POP: the host takes the head byte (R123). -/
def execPop (s : State) : Answer := .next (fifoPop s)

end Sys2Proof.Machine
end

