-- ==== Sys2Proof/Machine/TransactionControl.lean ====
section
/-! DEFINITION. Transaction control: Idle, START, the Trigger phase (40_transaction_control.md). -/

namespace Sys2Proof.Machine

/-- IDLE.WAIT: nothing is written (R81). -/
def execIdleWait (s : State) : Answer := .next s

/-- START: accept the request and begin a transaction (R82). -/
def execStart (s : State) : Answer :=
  .next ((((s.setCnt s.reqTake).setBitcnt 0).setShreg 0).goto .trigger)

/-- TRIG.HOLD: keep the line low for one more tick (R83). -/
def execTrigHold (s : State) : Answer := .next s.countDown

/-- TRIG.RELEASE: release the line and arm the first bounded wait (R84). -/
def execTrigRelease (s : State) : Answer := .next ((s.setCnt s.budget).goto .awaitRise1)

end Sys2Proof.Machine
end

