-- ==== Sys2Proof/Machine/Dispatch.lean ====
section
/-! DEFINITION. One arm per operation of 30_encoding.md R66. -/

namespace Sys2Proof.Machine

def exec (i : Instr) (s : State) : Host.Outcome State Fault Refusal :=
  match i with
  | .idleWait => Sys2Proof.Machine.execIdleWait s
  | .start => Sys2Proof.Machine.execStart s
  | .trigHold => Sys2Proof.Machine.execTrigHold s
  | .trigRelease => Sys2Proof.Machine.execTrigRelease s
  | .rise1Hit => Sys2Proof.Machine.execRise1Hit s
  | .rise1Poll => Sys2Proof.Machine.execRise1Poll s
  | .rise1Timeout => Sys2Proof.Machine.execRise1Timeout s
  | .fallHit => Sys2Proof.Machine.execFallHit s
  | .fallPoll => Sys2Proof.Machine.execFallPoll s
  | .fallTimeout => Sys2Proof.Machine.execFallTimeout s
  | .rise2Hit => Sys2Proof.Machine.execRise2Hit s
  | .rise2Poll => Sys2Proof.Machine.execRise2Poll s
  | .rise2Timeout => Sys2Proof.Machine.execRise2Timeout s
  | .bitHit => Sys2Proof.Machine.execBitHit s
  | .bitPoll => Sys2Proof.Machine.execBitPoll s
  | .bitTimeout => Sys2Proof.Machine.execBitTimeout s
  | .settleHold => Sys2Proof.Machine.execSettleHold s
  | .sample => Sys2Proof.Machine.execSample s
  | .errFill => Sys2Proof.Machine.execErrFill s
  | .pop => Sys2Proof.Machine.execPop s

end Sys2Proof.Machine
end

