-- ==== Sys2Proof/Machine/Fetch.lean ====
section
/-! DEFINITION. There is no instruction fetch (20_memory.md R54): an operation is selected by the registers and the
input ports of the tick. What stands for placing an instruction is to bring about the word that selects it. -/

namespace Sys2Proof.Machine

/-- The input ports a placed operation starts from: those listed for this tick, or quiet ones (log 7). -/
def State.portsToPlace (s : State) : Inputs :=
  s.inputs.head?.getD { rst := false, lineI := true, reqValid := false, reqTicks := 0, outReady := false }

/-- `s` with its dispatch word made `d` (30_encoding.md R64): the control state of `d`, the request and line inputs that
give `acc` and `hit`, the FIFO emptied only if `acc` needs it, `cnt` changed only if its `tc` is not the wanted one. No
reset and no POP on this tick. -/
def placeDispatch (s : State) (d : BitVec 6) : State :=
  let c := Ctrl.ofCode (d.extractLsb' 3 3)
  let wantAcc := d.getLsbD 2
  let wantHit := d.getLsbD 1
  let wantTc := d.getLsbD 0
  let i : Inputs :=
    { s.portsToPlace with rst := false, outReady := false, reqValid := wantAcc, lineI := if wantHit then tgt c else !tgt c }
  { s.withNow i with
    state := c
    fifo := if wantAcc then [] else s.fifo
    cnt := if tc s = wantTc then s.cnt else if wantTc then 1 else 2 }

/-- `s` with its port word made `p` (30_encoding.md R60): `out_ready` as in `p`, a byte 0 in an empty FIFO if
`out_valid` is wanted, the FIFO emptied if it is not. No reset and no request on this tick, so that in Idle the
operation beside it is IDLE.WAIT. -/
def placePort (s : State) (p : BitVec 2) : State :=
  { s.withNow { s.portsToPlace with rst := false, reqValid := false, outReady := p.getLsbD 0 } with
    fifo := if p.getLsbD 1 then (if s.fifo.isEmpty then [0] else s.fifo) else [] }

/-- `s` with the word `w` of a format brought about. -/
def placeWord (s : State) (f : Format) (w : Nat) : State :=
  match f with
  | .dispatch => placeDispatch s (BitVec.ofNat 6 w)
  | .port => placePort s (BitVec.ofNat 2 w)

end Sys2Proof.Machine
end

