-- ==== Sys2Proof/Machine/Step.lean ====
section
/-! DEFINITION. One tick (00_scope.md R12, 60_exceptions.md R149). -/

namespace Sys2Proof.Machine

/-- The host-port operation of the tick, if its port word selects one (20_memory.md R44). -/
def stepPort (p : Option Instr) (s : State) : Host.Outcome State Fault Refusal :=
  match p with
  | some i => exec i s
  | none => .next s

/-- The step of a tick: reset wins over everything (70_reset_and_hazards.md R165); otherwise the FSM operation of the
dispatch word (30_encoding.md R64), and beside it the operation of the port word, both words formed before the edge.
POP is written first: it writes nothing but the FIFO's head, which no FSM operation reads, so each reads the registers
as they were before the edge, and a byte pushed on this tick joins the tail behind the head that leaves
(43_error_fill_and_output.md R124). -/
def step (s : State) : Host.Outcome State Fault Refusal :=
  if s.now.rst then .next s.resetRegs.advance
  else
    match fsmOp s with
    | none => .refused (.noDispatchRow (dispatchWord s))
    | some i => andThen (stepPort (portOp s) s) fun t => andThen (exec i t) fun u => .next u.advance

/-- `s` with the operation of a table word brought about at this tick, so that the next step runs it (log 7). -/
def State.withFetchWord (s : State) (nbits w : Nat) : State := placeWord s (tableFormat nbits w) w

end Sys2Proof.Machine
end

