-- ==== Sys2Proof/Machine/HostDriver.lean ====
section
/-! DEFINITION. The host contract: the driver's `read()` (44_host_driver_contract.md). It is host software, an agent
beside the block: it drives the request and output ports and computes on the five bytes. -/

namespace Sys2Proof.Machine

/-- A RawFrame: the five bytes of one transaction in the order popped (00_scope.md R15, 30_encoding.md R63). -/
structure Frame where
  b0 : Byte
  b1 : Byte
  b2 : Byte
  b3 : Byte
  b4 : Byte
  deriving DecidableEq, Repr, Inhabited

/-- The frame of exactly five bytes; none of fewer or more: partial frames are never exposed (R134). -/
def Frame.ofBytes : List Byte → Option Frame
  | [b0, b1, b2, b3, b4] => some ⟨b0, b1, b2, b3, b4⟩
  | _ => none

/-- The bytes of a frame in order. -/
def Frame.bytes (f : Frame) : List Byte := [f.b0, f.b1, f.b2, f.b3, f.b4]

/-- The sum of the first four bytes over unbounded naturals (R135). -/
def Frame.sum4 (f : Frame) : Nat := f.b0.toNat + f.b1.toNat + f.b2.toNat + f.b3.toNat

/-- The checksum test (R135). -/
def Frame.valid (f : Frame) : Bool := f.sum4 &&& 0xFF == f.b4.toNat

/-- Humidity in tenths of a percent: the first two bytes, big-endian, unsigned (R136). -/
def Frame.humidity10 (f : Frame) : Nat := (f.b0.toNat <<< 8) + f.b1.toNat

/-- Temperature in tenths of a degree: the next two bytes, big-endian, unsigned (R137). -/
def Frame.temperature10 (f : Frame) : Nat := (f.b2.toNat <<< 8) + f.b3.toNat

/-- A Reading: integer tenths (00_scope.md R15; R139). -/
structure Reading where
  temperature10 : Nat
  humidity10 : Nat
  deriving DecidableEq, Repr, Inhabited

/-- An exact decimal number with one digit after the point (R139). -/
structure Decimal where
  units : Nat
  tenth : Nat
  deriving DecidableEq, Repr, Inhabited

/-- A number of tenths divided by ten, exactly (R139). -/
def Decimal.ofTenths (v : Nat) : Decimal := ⟨v / 10, v % 10⟩

/-- What `read()` returns: `(temperature, humidity)`, both present or both absent (R130, R138). -/
abbrev ReadResult := Option Decimal × Option Decimal

/-- The Reading of a frame: present only if the checksum holds (R131 steps 4 and 5; R135 to R138). -/
def Frame.reading (f : Frame) : Option Reading :=
  if f.valid then some ⟨f.temperature10, f.humidity10⟩ else none

/-- The result of `read()` on a frame, temperature first (R130, R131, R139). -/
def Frame.readResult (f : Frame) : ReadResult :=
  match f.reading with
  | some r => (some (Decimal.ofTenths r.temperature10), some (Decimal.ofTenths r.humidity10))
  | none => (none, none)

/-- Where a `read()` stands (R131). -/
inductive DriverPhase where
  /-- Step 2: the request is presented. -/
  | requesting
  /-- Step 3: bytes taken so far, in pop order. -/
  | collecting (taken : List Byte)
  /-- Steps 4 and 5: all five bytes are there. -/
  | finished (frame : Frame)
  deriving DecidableEq, Repr, Inhabited

/-- The driver: its open parameters and its phase. -/
structure Driver where
  cfg : DriverConfig
  phase : DriverPhase
  deriving DecidableEq, Repr, Inhabited

/-- A `read()` at its start. Step 1, the interval, is the caller's duty (R132). -/
def Driver.begin (c : DriverConfig) : Driver := ⟨c, .requesting⟩

/-- The host's ports at a tick with line level `l` (R131 steps 2 and 3, R133, R134): the request is held until START
executes, then dropped; bytes are taken as soon as they appear. -/
def Driver.ports (d : Driver) (l : Level) : Inputs :=
  match d.phase with
  | .requesting => { rst := false, lineI := l, reqValid := true, reqTicks := d.cfg.triggerTicks, outReady := false }
  | .collecting _ => { rst := false, lineI := l, reqValid := false, reqTicks := 0, outReady := true }
  | .finished _ => { rst := false, lineI := l, reqValid := false, reqTicks := 0, outReady := false }

/-- The driver after a tick in which the block's outputs were those of `s`: it sees START as `req_valid` and
`req_ready` (70_reset_and_hazards.md R172), and takes a byte when `out_valid` (R134). -/
def Driver.next (d : Driver) (s : State) : Driver :=
  match d.phase with
  | .requesting => if reqReady s then { d with phase := .collecting [] } else d
  | .collecting taken =>
    if outValid s then
      match Frame.ofBytes (taken ++ [outByte s]) with
      | some f => { d with phase := .finished f }
      | none => { d with phase := .collecting (taken ++ [outByte s]) }
    else d
  | .finished _ => d

/-- The result of the `read()`, once the fifth byte is taken. -/
def Driver.result (d : Driver) : Option ReadResult :=
  match d.phase with
  | .finished f => some f.readResult
  | .requesting => none
  | .collecting _ => none

/-- The block and the driver of one sensor, ticking together (60_exceptions.md R156). -/
structure Station where
  block : State
  driver : Driver
  deriving DecidableEq, Repr, Inhabited

/-- One tick of the block and the driver with line level `l`. -/
def Station.tick (y : Station) (l : Level) : Host.Outcome Station Fault Refusal :=
  match step (y.block.withNow (y.driver.ports l)) with
  | .next s => .next ⟨s, y.driver.next y.block⟩
  | .fault r => .fault r
  | .refused r => .refused r

/-- The ticks of a list of line levels. -/
def Station.run : List Level → Station → Host.Outcome Station Fault Refusal
  | [], y => .next y
  | l :: ls, y =>
    match y.tick l with
    | .next z => Station.run ls z
    | .fault r => .fault r
    | .refused r => .refused r

/-- `TRIGGER_TICKS = round(20 ms / T_TICK)` (R133). DESIGN CHOICE (log 15): an exact half goes up, where the spec writes
only `round`. The driver's value is its own open parameter; this is only the figure the source derives it from. -/
def nominalTriggerTicks (tickNs : Nat) : Nat := (20000000 + tickNs / 2) / tickNs

/-- The caller's duty between two reads, from tick `t` to tick `u` (R132; 70_reset_and_hazards.md R171). The source does
not say from which event to which the interval is measured, so both ticks are arguments (log 9). -/
def intervalKept (d : DriverConfig) (c : Config) (t u : Nat) : Prop := d.minIntervalNs ≤ (u - t) * c.tickNs

end Sys2Proof.Machine
end

