-- ==== Sys2Proof/Machine/Stimulus.lean ====
section
/-! DEFINITION. What a stimulus script denotes (30_encoding.md R70, R71): the input ports tick by tick. -/

namespace Sys2Proof.Machine

/-- A run of a LINE line: a level and a number of ticks. -/
abbrev Run := Level × Nat

/-- `CELL(b)`: `L*1`, then `S` ticks of the bit (R71). -/
def cellRuns (S : Nat) (b : Bool) : List Run := [(false, 1), (b, S)]

/-- `BYTE(v)`: eight cells, most significant bit first (R71). -/
def byteRuns (S : Nat) (v : Byte) : List Run :=
  [7, 6, 5, 4, 3, 2, 1, 0].flatMap fun k => cellRuns S (v.getLsbD k)

/-- The runs of an item (R71). -/
def itemRuns (S : Nat) : LineItem → List Run
  | .run l k => [(l, k)]
  | .cell b => cellRuns S b
  | .byte v => byteRuns S v
  | .frame v0 v1 v2 v3 v4 => [v0, v1, v2, v3, v4].flatMap (byteRuns S)
  | .pulse w => [(false, 1), (true, w)]

/-- The number of ticks that an item of a LINE line lasts (R71). -/
def itemTicks (S : Nat) : LineItem → Nat
  | .run _ k => k
  | .cell _ => 1 + S
  | .byte _ => 8 * (1 + S)
  | .frame _ _ _ _ _ => 40 * (1 + S)
  | .pulse w => 1 + w

/-- The level at tick `t` of a list of runs; the level of the last run holds for ever after it (R70). None if there is
no run at all. DESIGN CHOICE (log 8): a run of zero ticks, for which R70 gives no rule of its own, takes no tick, and if
it is the last its level still holds for ever. -/
def runsLevel : List Run → Nat → Option Level
  | [], _ => none
  | [(l, _)], _ => some l
  | (l, k) :: r :: rest, t => if t < k then some l else runsLevel (r :: rest) (t - k)

/-- The configuration of a script: its PARAM line, with the default of every field that is absent from it, or the
defaults (R70). -/
def scriptConfig (sc : Script) : Config :=
  match sc with
  | .param b s :: _ =>
    { Config.default with
      waitBudget := b.getD Config.default.waitBudget, settleTicks := s.getD Config.default.settleTicks }
  | _ => Config.default

/-- The runs of a script's LINE line, macros expanded. -/
def scriptRuns (S : Nat) (sc : Script) : List Run :=
  sc.flatMap fun
    | .line items => items.flatMap (itemRuns S)
    | .param _ _ | .req _ _ | .popAt _ | .popFrom _ | .resetAt _ => []

/-- The requests of a script in order, each with the tick it is presented from. -/
def scriptReqs (sc : Script) : List (Word × Nat) :=
  sc.flatMap fun
    | .req n t => [(n, t)]
    | .param _ _ | .line _ | .popAt _ | .popFrom _ | .resetAt _ => []

/-- `out_ready` at tick `t` (R70). -/
def scriptOutReady (sc : Script) (t : Nat) : Bool :=
  sc.any fun
    | .popAt ts => ts.contains t
    | .popFrom u => decide (u ≤ t)
    | .param _ _ | .req _ _ | .line _ | .resetAt _ => false

/-- `rst` at tick `t` (R70). -/
def scriptRst (sc : Script) (t : Nat) : Bool :=
  sc.any fun
    | .resetAt u => u == t
    | .param _ _ | .req _ _ | .line _ | .popAt _ | .popFrom _ => false

/-- The block under a script: the requests that START has not yet taken are the script's only state (R70: a request is
presented up to and including the tick on which START executes). -/
structure Bench where
  script : Script
  reqs : List (Word × Nat)
  block : State
  deriving DecidableEq, Repr, Inhabited

/-- The reset state with a script's configuration (R70: tick 0 is the first tick after reset is released). -/
def Bench.start (sc : Script) : Bench :=
  ⟨sc, scriptReqs sc, { State.reset with cfg := scriptConfig sc }⟩

/-- The request port at this tick: the first request not yet taken, once its tick has come. -/
def Bench.request (b : Bench) : Option Word :=
  match b.reqs with
  | [] => none
  | (n, t) :: _ => if t ≤ b.block.tick then some n else none

/-- The input ports of this tick (R70). A script without a LINE line leaves the level free (log 8). -/
def Bench.ports (b : Bench) : Inputs :=
  { rst := scriptRst b.script b.block.tick
    lineI := (runsLevel (scriptRuns b.block.settleLoad.toNat b.script) b.block.tick).getD
      (Config.freeInputs b.block.tick).lineI
    reqValid := b.request.isSome
    reqTicks := b.request.getD 0
    outReady := scriptOutReady b.script b.block.tick }

/-- Does this tick take the presented request? -/
def Bench.takes (b : Bench) : Bool := !b.ports.rst && b.ports.reqValid && reqReady b.block

/-- One tick under the script. -/
def Bench.tick (b : Bench) : Host.Outcome Bench Fault Refusal :=
  match step (b.block.withNow b.ports) with
  | .next s => .next { b with block := s, reqs := if b.takes then b.reqs.tail else b.reqs }
  | .fault r => .fault r
  | .refused r => .refused r

/-- `n` ticks under the script. -/
def Bench.run : Nat → Bench → Host.Outcome Bench Fault Refusal
  | 0, b => .next b
  | n + 1, b =>
    match b.tick with
    | .next c => Bench.run n c
    | .fault r => .fault r
    | .refused r => .refused r

/-- What the script denotes: the input ports of the first `n` ticks (R70). -/
def Bench.denote : Nat → Bench → List Inputs
  | 0, _ => []
  | n + 1, b =>
    b.ports ::
      match b.tick with
      | .next c => Bench.denote n c
      | .fault _ => []
      | .refused _ => []

end Sys2Proof.Machine
end

