-- ==== Sys2Proof/Safety.lean ====
section
/-! DEFINITION. The terms claims are stated in: runs, the invariants of 10_state.md R28 to R31, reachable states, the
stream of bytes, what a run sampled, and the host's duties. -/

namespace Sys2Proof.Machine

/-- `n` ticks from `s`, stopping at the first fault or refusal. -/
def after : Nat → State → Answer
  | 0, s => .next s
  | n + 1, s => andThen (step s) (after n)

/-- No reset in the next `n` ticks. -/
def NoReset (n : Nat) (s : State) : Prop := ∀ k, k < n → (s.inputAt k).rst = false

/-- After `n` ticks the machine is in a state with `P`. -/
def AfterHolds (n : Nat) (s : State) (P : State → Prop) : Prop := ∃ t, after n s = .next t ∧ P t

/-- The four wait states (41_bounded_waits.md R90). -/
def isWait : Ctrl → Bool
  | .awaitRise1 | .awaitFall | .awaitRise2 | .bitWait => true
  | .idle | .trigger | .settle | .error => false

/-- R28: Idle is clean. -/
def CleanIdle (s : State) : Prop := s.state = .idle → s.bitcnt = 0 ∧ s.shreg = 0 ∧ s.cnt = 0

/-- R29: the counter ranges. -/
structure CounterRanges (s : State) : Prop where
  wait : isWait s.state = true → 1 ≤ s.cnt.toNat ∧ s.cnt.toNat ≤ s.cfg.waitBudget.toNat
  settle : s.state = .settle → 1 ≤ s.cnt.toNat ∧ s.cnt.toNat ≤ s.cfg.settleTicks.toNat
  error : s.state = .error → s.cnt = 0
  bitcnt : s.bitcnt.toNat ≤ 39

/-- R30: the FIFO bound. -/
structure FifoBound (s : State) : Prop where
  running : s.state ≠ .idle → s.fifoCnt ≤ s.bitcnt.toNat / 8
  idle : s.state = .idle → s.fifoCnt ≤ 5

/-- R31: the accumulator bound. -/
def AccumulatorBound (s : State) : Prop := s.shreg.toNat < 2 ^ (s.bitcnt.toNat % 8)

/-- Before the first bit wait no bit has been shifted in: what START leaves and no operation of the Trigger phase and
of the three handshake waits writes (40 R82; 41 R95, R99). -/
def HandshakeClean (s : State) : Prop :=
  s.state = .trigger ∨ s.state = .awaitRise1 ∨ s.state = .awaitFall ∨ s.state = .awaitRise2 →
    s.bitcnt = 0 ∧ s.shreg = 0

/-- The invariant of the block: a legal configuration (00_scope.md R8) and 10_state.md R28 to R31, with what makes
them inductive. -/
structure Inv (s : State) : Prop where
  config : s.cfg.wf = true
  clean : CleanIdle s
  ranges : CounterRanges s
  fifo : FifoBound s
  accumulator : AccumulatorBound s
  handshake : HandshakeClean s

/-- A state a run can be in: after reset with any legal configuration and any environment, or a tick later
(93_implementation_defined.md U3: traces begin with a reset). -/
inductive Reachable : State → Prop where
  | reset (s : State) (h : s.cfg.wf = true) : Reachable s.resetRegs
  | tick (s t : State) (h : Reachable s) (hs : step s = .next t) : Reachable t

/-- The bytes pushed since the last reset, those the host has taken first: popping moves a byte from the FIFO's head
to the end of the taken ones and leaves this stream as it is. -/
def stream (s : State) : List Byte := s.popped.map Prod.snd ++ s.fifo

/-- This tick executes START. -/
def Starts (s : State) : Prop := s.now.rst = false ∧ s.state = .idle ∧ s.now.reqValid = true ∧ s.fifo = []

/-- This tick executes the FSM operation `i`. -/
def Runs (i : Instr) (s : State) : Prop := s.now.rst = false ∧ fsmOp s = some i

/-- `N' = max(N, 1)` of 40_transaction_control.md R85, for the request word of this tick. -/
def holdTicks (s : State) : Nat := max s.reqTake.toNat 1

/-- The bound of 70_reset_and_hazards.md R179 for a transaction that starts at this tick: `N' + 43*B + 40*S`. -/
def transactionBound (s : State) : Nat :=
  holdTicks s + nWaits * s.cfg.waitBudget.toNat + frameBits * s.cfg.settleTicks.toNat

/-- The levels sampled in the next `n` ticks, earliest first: the line at the ticks that execute SAMPLE. -/
def samples : Nat → State → List Bool
  | 0, _ => []
  | n + 1, s =>
    (if s.now.rst = false ∧ fsmOp s = some .sample then [s.now.lineI] else []) ++
      match step s with
      | .next t => samples n t
      | .fault _ => []
      | .refused _ => []

/-- The ticks, counted from now, among the next `n` that execute BIT.HIT. -/
def bitHits : Nat → State → List Nat
  | 0, _ => []
  | n + 1, s =>
    (if s.now.rst = false ∧ fsmOp s = some .bitHit then [0] else []) ++
      (match step s with
        | .next t => bitHits n t
        | .fault _ => []
        | .refused _ => []).map (· + 1)

/-- Bit `i` of the transaction in its bytes: bit `7 - (i mod 8)` of byte `i div 8` (20_memory.md R47). -/
def frameBit (bytes : List Byte) (i : Nat) : Bool := (bytes.getD (i / 8) 0).getLsbD (7 - i % 8)

/-- The block's own registers, without the FIFO, agree (and so does the configuration). -/
def SameFsm (s t : State) : Prop :=
  s.state = t.state ∧ s.cnt = t.cnt ∧ s.bitcnt = t.bitcnt ∧ s.shreg = t.shreg ∧ s.cfg = t.cfg

/-! ## What a transaction promises (70_reset_and_hazards.md R179, R180) -/

/-- The transaction that the START of this tick begins: busy during exactly the next `T` ticks, and back in Idle, in the
state `t`, after them (R179). -/
structure TransactionRun (T : Nat) (s t : State) : Prop where
  starts : Starts s
  busy : ∀ k, 1 ≤ k → k ≤ T → AfterHolds k s fun u => busy u = true
  ends : after (T + 1) s = .next t
  idle : t.state = .idle

/-- This tick executes one of the four TIMEOUTs: the transaction fails here. -/
def TimesOut (s : State) : Prop :=
  Runs .rise1Timeout s ∨ Runs .fallTimeout s ∨ Runs .rise2Timeout s ∨ Runs .bitTimeout s

/-- The transaction fails at one of the `T` ticks after its START. -/
def Fails (T : Nat) (s : State) : Prop := ∃ k u, k ≤ T ∧ after k s = .next u ∧ TimesOut u

/-- R180: the properties of a transaction of `T` ticks from `s` to `t` that pushes `bytes`. No host duty is asked: the
schedules that meet R170 and R172 are among all schedules. -/
structure TransactionProperties (T : Nat) (s t : State) (bytes : List Byte) : Prop where
  /-- (a) exactly five bytes are pushed. -/
  fixedLength : bytes.length = 5 ∧ stream t = stream s ++ bytes
  /-- (b) back in Idle within `N' + 43*B + 40*S` ticks of START. -/
  termination : T ≤ transactionBound s
  /-- (c) on the success path there are 40 BIT.HITs, and bit `i` is the line `S` ticks after the `i`-th. -/
  bitIsSample : ¬ Fails T s → (bitHits (T + 1) s).length = 40 ∧
    ∀ i, i < 40 → frameBit bytes i = s.lineAt ((bitHits (T + 1) s).getD i 0 + s.cfg.settleTicks.toNat)
  /-- (d) after a TIMEOUT at `bitcnt = n` the last `40 - n` bits are 0. -/
  zeroFill : ∀ k u, k ≤ T → after k s = .next u → TimesOut u →
    ∀ i, u.bitcnt.toNat ≤ i → i < 40 → frameBit bytes i = false
  /-- (e) the invariants of 10_state.md R28 to R31, at every tick up to the return to Idle. -/
  cleanIdleAndNoLoss : ∀ k, k ≤ T + 1 →
    AfterHolds k s fun u => CleanIdle u ∧ CounterRanges u ∧ FifoBound u ∧ AccumulatorBound u
  /-- (f) the line is driven on exactly the `N'` periods after START, and never high. -/
  lineDiscipline : ∀ k, k ≤ T + 1 →
    AfterHolds k s fun u => (lineOe u = true ↔ 1 ≤ k ∧ k ≤ holdTicks s) ∧ lineO u = false

/-- The ticks within which any state of the block comes back to Idle (R180 (b)). -/
def idleBound (s : State) : Nat :=
  max s.cnt.toNat 1 + nWaits * s.cfg.waitBudget.toNat + frameBits * s.cfg.settleTicks.toNat

/-- The claim that R180 calls false: a failed transaction yields an invalid frame. -/
def FailedFramesAreInvalid : Prop :=
  ∀ (T : Nat) (s t : State) (bytes : List Byte) (f : Frame), Inv s → TransactionRun T s t → Fails T s →
    stream t = stream s ++ bytes → Frame.ofBytes bytes = some f → f.valid = false

/-- The line of a bit cell and of the next cell's low phase (R176), seen from `d` ticks into the first: `L` ticks low,
`w` high, `L` low, over the next `n` ticks. Beyond them the line is free. -/
def CellAndNextLow (s : State) (d L w n : Nat) : Prop :=
  ∀ j, j ≤ n → d + j < 2 * L + w → s.lineAt j = decide (L ≤ d + j ∧ d + j < L + w)

/-! ## What a stimulus script denotes (30_encoding.md R70, R71) -/

/-- How many of the next `n` ticks under the script execute START. -/
def Bench.startsWithin : Nat → Bench → Nat
  | 0, _ => 0
  | n + 1, b =>
    let s := b.block.withNow b.ports
    (if s.now.rst = false ∧ fsmOp s = some .start then 1 else 0) +
      match b.tick with
      | .next c => Bench.startsWithin n c
      | .fault _ => 0
      | .refused _ => 0

/-- R70: the input ports `p` are those that the script gives tick `t`, before which START has executed `j` times. -/
structure ScriptPorts (sc : Script) (t j : Nat) (p : Inputs) : Prop where
  /-- `RESET AT`: on these ticks and no others. -/
  rst : p.rst = true ↔ .resetAt t ∈ sc
  /-- `POP AT` and `POP FROM`: on these ticks and no others. -/
  outReady : p.outReady = true ↔ (∃ ts, .popAt ts ∈ sc ∧ t ∈ ts) ∨ ∃ u, .popFrom u ∈ sc ∧ u ≤ t
  /-- `REQ`: the first request that no START has taken yet is presented, from its tick on; on every other tick none is.
  That a request waits for the START of the one before it is DEDUCED (log 8). -/
  reqValid : p.reqValid = true ↔
    ∃ pre n u post, sc = pre ++ .req n u :: post ∧ (pre.filter ScriptLine.isReq).length = j ∧ u ≤ t
  /-- `REQ`: the request word is that request's. -/
  reqTicks : ∀ pre n u post, sc = pre ++ .req n u :: post → (pre.filter ScriptLine.isReq).length = j → u ≤ t →
    p.reqTicks = n
  /-- `LINE`: a run gives the level of its ticks, which follow those of the items before it; the last run's level holds
  for ever. -/
  lineI : ∀ pre l k post, .line (pre ++ .run l k :: post) ∈ sc →
    let start := (pre.map (itemTicks (scriptConfig sc).settleTicks.toNat)).sum
    start ≤ t → (t < start + k ∨ post = []) → p.lineI = l

/-- The expansion column of R71. -/
def macroExpansion (S : Nat) : LineItem → List LineItem
  | .run l k => [.run l k]
  | .cell b => [.run false 1, .run b S]
  | .byte v => [.cell (v.getLsbD 7), .cell (v.getLsbD 6), .cell (v.getLsbD 5), .cell (v.getLsbD 4),
      .cell (v.getLsbD 3), .cell (v.getLsbD 2), .cell (v.getLsbD 1), .cell (v.getLsbD 0)]
  | .frame v0 v1 v2 v3 v4 => [.byte v0, .byte v1, .byte v2, .byte v3, .byte v4]
  | .pulse w => [.run false 1, .run true w]

/-! ## The host's duties -/

/-- The host holds its request (70_reset_and_hazards.md R172): a request presented while `req_ready = 0` is presented
unchanged at the next tick. DESIGN CHOICE (log 16): a request presented on a ready tick with `rst = 1` need not be held. On
such a tick no START executes (R165), so R172's main clause would have it held on, while by its parenthesis the host has
seen `req_valid` and `req_ready` and may drop it; this duty is the weaker of the two. -/
def HoldsRequest (n : Nat) (s : State) : Prop :=
  ∀ k, k < n → (s.inputAt k).reqValid = true →
    ∀ t, after k s = .next t → reqReady t = false →
      (s.inputAt (k + 1)).reqValid = true ∧ (s.inputAt (k + 1)).reqTicks = (s.inputAt k).reqTicks

end Sys2Proof.Machine
end

