-- ==== Sys2Proof/Certificates/Slice0/Obligations.lean ====
section
/-! DEFINITION. The statements for the provers. Each docstring names the rules of spec/ it formalises. A run is
`after n s`; the environment of a run is the state's coming inputs (`State.inputAt`), so a statement about every state is
one about every line waveform and every host schedule. -/

open Sys2Proof Sys2Proof.Machine

/-! ## Reset -/

/-- 10_state.md R32: after any tick with `rst = 1` every register has its reset value, whatever the state and the other
inputs (70 R165, by which also no POP executes); the outputs that follow; and `State.reset` is such a state. The clauses on
the model's own fields are the model's choices, DESIGN CHOICE each: the inputs of the coming ticks move on by one (log 1),
the parameters stand in State and are kept (log 2), the tick number goes up by one on a reset tick too (log 3), and a reset
does not take back what the host has (log 4). -/
def Obligations.ResetLeavesTheStatedValues : Prop :=
  (∀ s : State, s.now.rst = true →
    step s = .next { s with state := .idle, cnt := 0, bitcnt := 0, shreg := 0, fifo := [],
                            inputs := s.inputs.tail, tick := s.tick + 1 }) ∧
  (State.reset.state = .idle ∧ State.reset.cnt = 0 ∧ State.reset.bitcnt = 0 ∧ State.reset.shreg = 0 ∧
    State.reset.fifo = []) ∧
  (∀ s : State, lineOe s.resetRegs = false ∧ lineO s.resetRegs = false ∧ reqReady s.resetRegs = true ∧
    outValid s.resetRegs = false ∧ busy s.resetRegs = false)

/-- The reset state meets the invariant, and so does every state just after reset with a legal configuration
(10_state.md R28 to R32, 00_scope.md R8). The configuration of `State.reset` is the spec's default (log 2). -/
def Obligations.ResetMeetsInvariant : Prop :=
  Inv State.reset ∧ ∀ s : State, s.cfg.wf = true → Inv s.resetRegs

/-! ## Selecting the operation of a tick -/

/-- 30_encoding.md R67: each of the 64 dispatch words matches exactly one row of the table, and the decoder answers it. -/
def Obligations.EveryDispatchWordMatchesOneRow : Prop :=
  ∀ d : BitVec 6, ∃ i : Instr,
    (i.row.format = .dispatch ∧ d.toNat &&& i.row.mask = i.row.value ∧ decodeDispatch d = some i) ∧
    ∀ j : Instr, j.row.format = .dispatch → d.toNat &&& j.row.mask = j.row.value → j = i

/-- 30_encoding.md R65: the condition bits are those functions of the registers and the inputs of the tick, the target
levels are those of the table, and in Idle `acc` is `req_valid and req_ready`. -/
def Obligations.ConditionBitsAreAsStated : Prop :=
  (∀ s : State,
    (acc s = true ↔ s.now.reqValid = true ∧ s.fifo.length = 0) ∧
    (hit s = true ↔ s.now.lineI = tgt s.state) ∧
    (tc s = true ↔ s.cnt.toNat ≤ 1) ∧
    (s.state = .idle → acc s = (s.now.reqValid && reqReady s))) ∧
  (tgt .awaitRise1 = true ∧ tgt .awaitFall = false ∧ tgt .awaitRise2 = true ∧ tgt .bitWait = false ∧
    tgt .idle = true ∧ tgt .trigger = true ∧ tgt .settle = true ∧ tgt .error = true)

/-- 30_encoding.md R64: a tick without reset forms the dispatch word from the state code and the three condition bits
and executes the one FSM operation whose row it matches; a tick with reset executes nothing but the reset. POP runs
beside it when its port word selects it (R66; 43 R123, R124); that POP is written first and the FSM operation runs on the
state it leaves is the model's choice of order, DEDUCED in log 10. `exec` is the operation's own effect (log 11);
`advance`, the model's own (logs 1 and 3), moves the inputs and the tick number to the next tick. -/
def Obligations.TickRunsTheDecodedOperation : Prop :=
  ∀ s : State,
    (dispatchWord s).extractLsb' 3 3 = s.state.code ∧ (dispatchWord s).getLsbD 2 = acc s ∧
    (dispatchWord s).getLsbD 1 = hit s ∧ (dispatchWord s).getLsbD 0 = tc s ∧
    (s.now.rst = true → step s = .next s.resetRegs.advance) ∧
    (s.now.rst = false →
      ∃ i : Instr, i.row.format = .dispatch ∧ (dispatchWord s).toNat &&& i.row.mask = i.row.value ∧
        decodeDispatch (dispatchWord s) = some i ∧
        ((outValid s && s.now.outReady) = false →
          step s = andThen (exec i s) fun u => .next u.advance) ∧
        ((outValid s && s.now.outReady) = true →
          step s = andThen (exec .pop s) fun t => andThen (exec i t) fun u => .next u.advance))

/-- Decode and encode agree: for every operation, with its ignored bits at every value, decoding its word gives it back;
and every dispatch word is the word of the operation it decodes to. -/
def Obligations.DecodeOfEncodeIsTheOperation : Prop :=
  (∀ (i : Instr) (free : BitVec 6), (decode (encodeWith i free)).toOption = some i) ∧
  (∀ (d : BitVec 6) (i : Instr), decodeDispatch d = some i → encodeWith i d = ⟨.dispatch, d.toNat⟩)

/-- Words written out from the table of 30_encoding.md R66 decode to their operations; the port words other than `0b11`
select none (R68). -/
def Obligations.TableWordsDecodeToTheirRows : Prop :=
  decodeDispatch 0b000001#6 = some .idleWait ∧ decodeDispatch 0b000100#6 = some .start ∧
  decodeDispatch 0b001100#6 = some .trigHold ∧ decodeDispatch 0b001011#6 = some .trigRelease ∧
  decodeDispatch 0b010011#6 = some .rise1Hit ∧ decodeDispatch 0b011000#6 = some .fallPoll ∧
  decodeDispatch 0b100001#6 = some .rise2Timeout ∧ decodeDispatch 0b101110#6 = some .bitHit ∧
  decodeDispatch 0b110010#6 = some .settleHold ∧ decodeDispatch 0b110101#6 = some .sample ∧
  decodeDispatch 0b111111#6 = some .errFill ∧ decodePort 0b11#2 = some .pop ∧
  decodePort 0b00#2 = none ∧ decodePort 0b01#2 = none ∧ decodePort 0b10#2 = none

/-- Bringing a word about is exact: from every state, the tick after `withFetchWord` has exactly that dispatch word, no
reset and no POP, so it runs exactly that operation, for every operation but POP and every value of the ignored bits; and
for POP's word the tick runs POP, and nothing else when the state is Idle. `withFetchWord` is the model's own (log 7). -/
def Obligations.PlacedOperationIsTheOneRun : Prop :=
  (∀ (s : State) (i : Instr) (free : BitVec 6), i ≠ .pop →
    let p := s.withFetchWord 6 (encodeWith i free).bits
    step p = andThen (exec i p) fun u => .next u.advance) ∧
  (∀ s : State, s.state = .idle →
    let p := s.withFetchWord 8 (encode .pop).bits
    portOp p = some .pop ∧ step p = andThen (exec .pop p) fun u => .next u.advance)

/-! ## The operations -/

/-- 40_transaction_control.md R81. -/
def Obligations.IdleWaitRests : Prop :=
  ∀ s : State,
    (fsmOp s = some .idleWait ↔ s.state = .idle ∧ ¬ (s.now.reqValid = true ∧ s.fifo = [])) ∧
    exec .idleWait s = .next s ∧
    (s.state = .idle → lineOe s = false ∧ busy s = false ∧ reqReady s = decide (s.fifoCnt = 0)) ∧
    (fsmOp s = some .idleWait → s.now.rst = false → s.now.outReady = false → step s = .next s.advance)

/-- 40_transaction_control.md R82: when START is selected, what it writes, the outputs during its tick and after it; no
request value is refused. -/
def Obligations.StartBeginsTheTransaction : Prop :=
  ∀ s : State,
    (fsmOp s = some .start ↔ s.state = .idle ∧ s.now.reqValid = true ∧ s.fifo = []) ∧
    exec .start s = .next { s with cnt := s.now.reqTicks, bitcnt := 0, shreg := 0, state := .trigger } ∧
    (fsmOp s = some .start → lineOe s = false ∧ reqReady s = true ∧ busy s = false) ∧
    (∀ t, exec .start s = .next t → lineOe t = true ∧ busy t = true ∧ reqReady t = false)

/-- 40_transaction_control.md R83 and R84: TRIG.HOLD and TRIG.RELEASE, selected by `state` and `cnt` alone; the line is
driven low during both, and released from the tick after TRIG.RELEASE. -/
def Obligations.TriggerHoldsAndReleases : Prop :=
  ∀ s : State,
    (fsmOp s = some .trigHold ↔ s.state = .trigger ∧ 1 < s.cnt.toNat) ∧
    (fsmOp s = some .trigRelease ↔ s.state = .trigger ∧ s.cnt.toNat ≤ 1) ∧
    exec .trigHold s = .next { s with cnt := s.cnt - 1 } ∧
    exec .trigRelease s = .next { s with cnt := s.cfg.waitBudget, state := .awaitRise1 } ∧
    (s.state = .trigger → lineOe s = true ∧ lineO s = false) ∧
    (∀ t, exec .trigRelease s = .next t → lineOe t = false)

/-- 41_bounded_waits.md R93, R96, R99, R102 and R105: the four HIT operations: selected by the awaited level whatever
`cnt` is, so a hit on the last poll beats the timeout; each loads the next counter and goes on; nothing else is
written. -/
def Obligations.HitsEndTheWaits : Prop :=
  ∀ s : State,
    (fsmOp s = some .rise1Hit ↔ s.state = .awaitRise1 ∧ s.now.lineI = true) ∧
    (fsmOp s = some .fallHit ↔ s.state = .awaitFall ∧ s.now.lineI = false) ∧
    (fsmOp s = some .rise2Hit ↔ s.state = .awaitRise2 ∧ s.now.lineI = true) ∧
    (fsmOp s = some .bitHit ↔ s.state = .bitWait ∧ s.now.lineI = false) ∧
    exec .rise1Hit s = .next { s with cnt := s.cfg.waitBudget, state := .awaitFall } ∧
    exec .fallHit s = .next { s with cnt := s.cfg.waitBudget, state := .awaitRise2 } ∧
    exec .rise2Hit s = .next { s with cnt := s.cfg.waitBudget, state := .bitWait } ∧
    exec .bitHit s = .next { s with cnt := s.cfg.settleTicks, state := .settle }

/-- 41_bounded_waits.md R94, R97, R100, R103: the four POLL operations: selected by the other level with polls left;
`cnt` goes down by one and stays at least 1; nothing else is written. -/
def Obligations.PollsCountDown : Prop :=
  ∀ s : State,
    (fsmOp s = some .rise1Poll ↔ s.state = .awaitRise1 ∧ s.now.lineI = false ∧ 1 < s.cnt.toNat) ∧
    (fsmOp s = some .fallPoll ↔ s.state = .awaitFall ∧ s.now.lineI = true ∧ 1 < s.cnt.toNat) ∧
    (fsmOp s = some .rise2Poll ↔ s.state = .awaitRise2 ∧ s.now.lineI = false ∧ 1 < s.cnt.toNat) ∧
    (fsmOp s = some .bitPoll ↔ s.state = .bitWait ∧ s.now.lineI = true ∧ 1 < s.cnt.toNat) ∧
    exec .rise1Poll s = .next { s with cnt := s.cnt - 1 } ∧
    exec .fallPoll s = .next { s with cnt := s.cnt - 1 } ∧
    exec .rise2Poll s = .next { s with cnt := s.cnt - 1 } ∧
    exec .bitPoll s = .next { s with cnt := s.cnt - 1 } ∧
    (1 < s.cnt.toNat → (s.cnt - 1).toNat = s.cnt.toNat - 1)

/-- 41_bounded_waits.md R95, R98, R101, R104: the four TIMEOUT operations: selected by a miss on the last poll; each
enters Error with `cnt` 0; `bitcnt`, `shreg` and everything else are kept. Taking this exception is the operations' own
effect. -/
def Obligations.TimeoutsEnterError : Prop :=
  ∀ s : State,
    (fsmOp s = some .rise1Timeout ↔ s.state = .awaitRise1 ∧ s.now.lineI = false ∧ s.cnt.toNat ≤ 1) ∧
    (fsmOp s = some .fallTimeout ↔ s.state = .awaitFall ∧ s.now.lineI = true ∧ s.cnt.toNat ≤ 1) ∧
    (fsmOp s = some .rise2Timeout ↔ s.state = .awaitRise2 ∧ s.now.lineI = false ∧ s.cnt.toNat ≤ 1) ∧
    (fsmOp s = some .bitTimeout ↔ s.state = .bitWait ∧ s.now.lineI = true ∧ s.cnt.toNat ≤ 1) ∧
    exec .rise1Timeout s = .next { s with state := .error, cnt := 0 } ∧
    exec .fallTimeout s = .next { s with state := .error, cnt := 0 } ∧
    exec .rise2Timeout s = .next { s with state := .error, cnt := 0 } ∧
    exec .bitTimeout s = .next { s with state := .error, cnt := 0 }

/-- 42_bit_decode.md R111: SETTLE.HOLD, selected by `state` and `cnt` alone. -/
def Obligations.SettleHoldCountsDown : Prop :=
  ∀ s : State,
    (fsmOp s = some .settleHold ↔ s.state = .settle ∧ 1 < s.cnt.toNat) ∧
    exec .settleHold s = .next { s with cnt := s.cnt - 1 } ∧
    (s.cfg.settleTicks = 1 → s.cnt.toNat ≤ s.cfg.settleTicks.toNat → fsmOp s ≠ some .settleHold)

/-- 42_bit_decode.md R112 and R113: SAMPLE is selected by `state` and `cnt` alone; it shifts the level of the line on
this tick in at bit 0, pushes the byte at its eighth bit, re-arms the fall wait, and after bit 39 ends the transaction.
`v` is the rule's expression on naturals. The hypothesis is R30's: there is room for a push. -/
def Obligations.SampleShiftsTheLineIn : Prop :=
  ∀ s : State,
    (fsmOp s = some .sample ↔ s.state = .settle ∧ s.cnt.toNat ≤ 1) ∧
    let v : Byte := BitVec.ofNat 8 (((s.shreg.toNat <<< 1) ||| s.now.lineI.toNat) &&& 0xFF)
    (s.bitcnt.toNat % 8 ≠ 7 →
      exec .sample s =
        .next { s with shreg := v, bitcnt := s.bitcnt + 1, state := .bitWait, cnt := s.cfg.waitBudget }) ∧
    (s.bitcnt.toNat % 8 = 7 → s.bitcnt ≠ 39 → s.fifo.length < 5 →
      exec .sample s =
        .next { s with fifo := s.fifo ++ [v], shreg := 0, bitcnt := s.bitcnt + 1, state := .bitWait,
                       cnt := s.cfg.waitBudget }) ∧
    (s.bitcnt = 39 → s.fifo.length < 5 →
      exec .sample s =
        .next { s with fifo := s.fifo ++ [v], shreg := 0, bitcnt := 0, state := .idle, cnt := 0 })

/-- 43_error_fill_and_output.md R121: ERR.FILL is selected in Error whatever the condition bits; it shifts one zero in,
pushes the byte at its eighth bit, stays in Error with `cnt` as it is, and after bit 39 ends the transaction. The line and
the request port are not read. -/
def Obligations.ErrFillShiftsAZeroIn : Prop :=
  ∀ s : State,
    (fsmOp s = some .errFill ↔ s.state = .error) ∧
    let v : Byte := BitVec.ofNat 8 ((s.shreg.toNat <<< 1) &&& 0xFF)
    (s.bitcnt.toNat % 8 ≠ 7 → exec .errFill s = .next { s with shreg := v, bitcnt := s.bitcnt + 1 }) ∧
    (s.bitcnt.toNat % 8 = 7 → s.bitcnt ≠ 39 → s.fifo.length < 5 →
      exec .errFill s = .next { s with fifo := s.fifo ++ [v], shreg := 0, bitcnt := s.bitcnt + 1 }) ∧
    (s.bitcnt = 39 → s.fifo.length < 5 →
      exec .errFill s = .next { s with fifo := s.fifo ++ [v], shreg := 0, bitcnt := 0, state := .idle, cnt := 0 })

/-- The model's choice for a push into a full FIFO, a state 10_state.md R30 rules out (log 5): exactly there the operation
stops with a fault, and every other operation in every other state answers a next state. -/
def Obligations.OnlyAPushIntoAFullFifoFaults : Prop :=
  ∀ (i : Instr) (s : State),
    ((i = .sample ∨ i = .errFill) ∧ s.bitcnt.toNat % 8 = 7 ∧ 5 ≤ s.fifo.length → exec i s = .fault .fifoOverflow) ∧
    (¬ ((i = .sample ∨ i = .errFill) ∧ s.bitcnt.toNat % 8 = 7 ∧ 5 ≤ s.fifo.length) → ∃ t, exec i s = .next t)

/-- 43_error_fill_and_output.md R123: POP is selected by the port word alone; it hands the host the byte that `out_byte`
shows and removes it from the FIFO's head; with an empty FIFO nothing happens; and popping the last byte in Idle makes
`req_ready` 1. -/
def Obligations.PopTakesTheHead : Prop :=
  ∀ s : State,
    (portOp s = some .pop ↔ s.fifo ≠ [] ∧ s.now.outReady = true) ∧
    (portOp s ≠ some .pop → portOp s = none) ∧
    (s.fifo = [] → exec .pop s = .next s) ∧
    (∀ b rest, s.fifo = b :: rest →
      outByte s = b ∧ exec .pop s = .next { s with fifo := rest, popped := s.popped ++ [(s.tick, b)] }) ∧
    (∀ b t, s.fifo = [b] → s.state = .idle → exec .pop s = .next t → reqReady t = true)

/-- 43_error_fill_and_output.md R124: a POP beside the FSM operation. `q` is the same tick without the host taking a
byte: the same FSM operation runs, and the tick with POP differs from it only in that the old head has left the FIFO for
the host. -/
def Obligations.PopAndFsmOperationBothTakeEffect : Prop :=
  ∀ (s u : State) (b : Byte) (rest : List Byte), s.fifo = b :: rest → s.now.rst = false → s.now.outReady = true →
    let q := s.withNow { s.now with outReady := false }
    fsmOp s = fsmOp q ∧
    (step q = .next u →
      ∃ pushed, u.fifo = b :: rest ++ pushed ∧ pushed.length ≤ 1 ∧
        step s = .next { u with fifo := rest ++ pushed, popped := s.popped ++ [(s.tick, b)] })

/-! ## Ports -/

/-- 20_memory.md R42 and 30_encoding.md R72: the outputs are these functions of the registers, and never of an input of
the same tick; the only line-side patterns are released and driving low. `out_byte` is the head of the FIFO when there
is one; otherwise it is a free value. That this free value too is the same whatever the inputs of the tick are is no rule
of the spec, which asks that no claim depend on `out_byte` there: it is the model's choice, DESIGN CHOICE (log 6: the draw
depends on the tick number alone), and nothing else is said of it. -/
def Obligations.OutputsAreMoore : Prop :=
  ∀ (s : State) (i : Inputs),
    (lineOe s = true ↔ s.state = .trigger) ∧ lineO s = false ∧
    (reqReady s = true ↔ s.state = .idle ∧ s.fifo.length = 0) ∧
    (outValid s = true ↔ 0 < s.fifo.length) ∧
    (∀ b rest, s.fifo = b :: rest → outByte s = b) ∧
    (busy s = true ↔ s.state ≠ .idle) ∧
    (drive s = if s.state = .trigger then (true, false) else (false, false)) ∧
    lineOe (s.withNow i) = lineOe s ∧ lineO (s.withNow i) = lineO s ∧ reqReady (s.withNow i) = reqReady s ∧
    outValid (s.withNow i) = outValid s ∧ outByte (s.withNow i) = outByte s ∧ busy (s.withNow i) = busy s

/-- Inputs that no rule reads (20_memory.md R43, R44, R45; 70 R165; 92 D25): the line outside the polls and the sample,
the request port outside Idle, the request word on every tick but START's, `out_ready` with an empty FIFO, and all
others on a tick with reset. -/
def Obligations.UnreadInputsChangeNothing : Prop :=
  ∀ s : State,
    (∀ l : Level, isWait s.state = false → ¬ (s.state = .settle ∧ s.cnt.toNat ≤ 1) →
      step (s.withNow { s.now with lineI := l }) = step s) ∧
    (∀ (v : Bool) (n : Word), s.state ≠ .idle →
      step (s.withNow { s.now with reqValid := v, reqTicks := n }) = step s) ∧
    (∀ n : Word, ¬ Starts s → step (s.withNow { s.now with reqTicks := n }) = step s) ∧
    (∀ r : Bool, s.fifo = [] → step (s.withNow { s.now with outReady := r }) = step s) ∧
    (∀ i : Inputs, s.now.rst = true → i.rst = true → step (s.withNow i) = step s)

/-- 20_memory.md R43: a request is transferred exactly on a tick with `req_valid` and `req_ready` both 1, the tick that
executes START; on every other tick without a reset the request is neither taken nor remembered: the next state is that
of the same tick with no request at all. -/
def Obligations.RequestTransferIsStart : Prop :=
  ∀ s : State, s.now.rst = false →
    (fsmOp s = some .start ↔ s.now.reqValid = true ∧ reqReady s = true) ∧
    (∀ t, fsmOp s = some .start → step s = .next t → t.state = .trigger ∧ t.cnt = s.now.reqTicks) ∧
    (reqReady s = false → step s = step (s.withNow { s.now with reqValid := false, reqTicks := 0 }))

/-- The interlock and the host's own deadlock (70_reset_and_hazards.md R170): with bytes in the FIFO, a block in Idle
stays as it is for as long as the host takes none and does not reset it, whatever it requests and whatever the line
does. -/
def Obligations.UndrainedIdleAcceptsNothing : Prop :=
  ∀ (n : Nat) (s : State), s.state = .idle → s.fifo ≠ [] →
    (∀ k, k < n → (s.inputAt k).rst = false ∧ (s.inputAt k).outReady = false) →
    after n s = .next { s with inputs := s.inputs.drop n, tick := s.tick + n }

/-- A request held as 70_reset_and_hazards.md R172 asks is taken as it was first presented: if the block is not ready at
the ticks before `n` and is ready at tick `n`, without a reset on that tick, then START executes at tick `n` with the
request word of now. -/
def Obligations.HeldRequestIsTakenUnchanged : Prop :=
  ∀ (n : Nat) (s : State), s.now.reqValid = true → HoldsRequest n s →
    (∀ k, k < n → AfterHolds k s fun u => reqReady u = false) →
    AfterHolds n s (fun u => reqReady u = true ∧ u.now.rst = false) →
    AfterHolds n s fun u => Starts u ∧ u.reqTake = s.reqTake

/-! ## The exception -/

/-- 60_exceptions.md R150: entry into Error, exactly. On a timeout tick `state` becomes Error and `cnt` 0; `bitcnt`,
`shreg` are kept; the bytes already pushed stay, in the FIFO or taken by the host on this tick; the line stays released
and `busy` stays 1; and the next tick without reset is an ERR.FILL. -/
def Obligations.TimeoutEntersErrorPrecisely : Prop :=
  ∀ s : State, isWait s.state = true → s.now.rst = false → s.now.lineI ≠ tgt s.state → s.cnt.toNat ≤ 1 →
    lineOe s = false ∧ busy s = true ∧
    ∃ t, step s = .next t ∧ t.state = .error ∧ t.cnt = 0 ∧ t.bitcnt = s.bitcnt ∧ t.shreg = s.shreg ∧
      stream t = stream s ∧ (s.now.outReady = false → t.fifo = s.fifo) ∧ lineOe t = false ∧ busy t = true ∧
      fsmOp t = some .errFill

/-- 60_exceptions.md R146: the wait ordinal of each timeout, 1 to 43, and no register stores it: the entry into Error is
the same whatever the ordinal. -/
def Obligations.WaitOrdinalsAreLabels : Prop :=
  ∀ s : State,
    (fsmOp s = some .rise1Timeout → waitOrdinal s = some 1) ∧
    (fsmOp s = some .fallTimeout → waitOrdinal s = some 2) ∧
    (fsmOp s = some .rise2Timeout → waitOrdinal s = some 3) ∧
    (fsmOp s = some .bitTimeout → waitOrdinal s = some (4 + s.bitcnt.toNat)) ∧
    (∀ w, s.bitcnt.toNat ≤ 39 → waitOrdinal s = some w → 1 ≤ w ∧ w ≤ nWaits) ∧
    (∀ v w, raiseTimingFailure v s = raiseTimingFailure w s)

/-- What enters and leaves each phase (10_state.md R28; 42 R110; 43 R120; 60 R152, R153; 20 R45), over all operations:
Trigger is entered only by START, Settle only by BIT.HIT, Error only by a TIMEOUT, Idle only by the shift of bit 39; and
Error is left only for Idle. -/
def Obligations.PhasesAreEnteredOnlyAsStated : Prop :=
  ∀ s t : State, s.now.rst = false → step s = .next t →
    (t.state = .trigger → s.state = .trigger ∨ fsmOp s = some .start) ∧
    (t.state = .settle → s.state = .settle ∨ fsmOp s = some .bitHit) ∧
    (t.state = .error → s.state = .error ∨ fsmOp s = some .rise1Timeout ∨ fsmOp s = some .fallTimeout ∨
      fsmOp s = some .rise2Timeout ∨ fsmOp s = some .bitTimeout) ∧
    (t.state = .idle → s.state = .idle ∨ s.bitcnt = 39 ∧ (fsmOp s = some .sample ∨ fsmOp s = some .errFill)) ∧
    (s.state = .error → t.state = .error ∨ t.state = .idle)

/-! ## Invariants over every step -/

/-- Every tick from a state with the invariant answers a next state, and that state has the invariant: the block never
stops, and 10_state.md R28 to R31 are kept, under every line level and every host action. -/
def Obligations.EveryTickKeepsTheInvariant : Prop :=
  ∀ s : State, Inv s → ∃ t, step s = .next t ∧ Inv t

/-- 10_state.md R28, R29, R30, R31: they hold at every tick after reset, for every legal configuration and every
environment; `cnt = 0` in Trigger only on the tick after a START with request 0; and no push ever finds the FIFO full, so
every tick answers a next state. -/
def Obligations.ReachableStatesMeetTheInvariants : Prop :=
  ∀ s : State, Reachable s →
    CleanIdle s ∧ CounterRanges s ∧ FifoBound s ∧ AccumulatorBound s ∧ (∃ t, step s = .next t) ∧
    (∀ t, step s = .next t → t.state = .trigger → t.cnt = 0 → fsmOp s = some .start ∧ s.now.reqTicks = 0)

/-- Frame of every tick: the configuration never changes (20_memory.md R54), and the bytes the host has taken are only
ever added to, by the byte `out_byte` showed on a tick with POP (43 R123). The clauses on the model's own fields are the
model's choices, DESIGN CHOICE each: the inputs of the coming ticks move on by one (log 1), the tick number goes up by one
on every tick, a reset tick included (log 3), and a reset does not take back what the host has (log 4). -/
def Obligations.EveryTickKeepsTheOutsideWorld : Prop :=
  ∀ s t : State, step s = .next t →
    t.cfg = s.cfg ∧ t.tick = s.tick + 1 ∧ t.inputs = s.inputs.tail ∧
    t.popped = s.popped ++
      (if s.now.rst = false ∧ outValid s = true ∧ s.now.outReady = true then [(s.tick, outByte s)] else [])

/-- Bytes leave in the order pushed and none is lost or reordered (20_memory.md R44, R52): a tick without reset only
appends to the stream of bytes, at most one, and only at a shift with `bitcnt[2:0] = 7` (R50); what the host takes on
the tick was already in the FIFO. -/
def Obligations.StreamOnlyGrowsByWholeBytes : Prop :=
  ∀ s t : State, s.now.rst = false → step s = .next t →
    ∃ pushed, stream t = stream s ++ pushed ∧ pushed.length ≤ 1 ∧
      t.popped.map Prod.snd <+: stream s ∧
      (pushed ≠ [] ↔ s.bitcnt.toNat % 8 = 7 ∧ (fsmOp s = some .sample ∨ fsmOp s = some .errFill))

/-- The counter never wraps (10_state.md R22; 60 R155): every operation that decrements it runs only with `cnt > 1`, and
on every tick without reset `cnt` stays, goes down by one without wrapping, becomes 0 at an entry into Error or the end
of a transaction, or is loaded with the request word, `B` or `S`. -/
def Obligations.CounterNeverWraps : Prop :=
  ∀ s t : State, s.now.rst = false → step s = .next t →
    t.cnt = s.cnt ∨ (1 < s.cnt.toNat ∧ t.cnt.toNat = s.cnt.toNat - 1) ∨
    (t.cnt = 0 ∧ (t.state = .error ∨ t.state = .idle)) ∨
    (t.cnt = s.now.reqTicks ∧ fsmOp s = some .start) ∨
    (t.cnt = s.cfg.waitBudget ∧ isWait t.state = true) ∨ (t.cnt = s.cfg.settleTicks ∧ t.state = .settle)

/-! ## Runs -/

/-- 40_transaction_control.md R85: a request `N` accepted now makes `state = Trigger`, the line driven low, during
exactly the `N' = max(N, 1)` periods after this tick, and AwaitRise1 begins at period `N' + 1` with `cnt = B`. -/
def Obligations.LowPulseLastsTheRequestedTicks : Prop :=
  ∀ s : State, Starts s → NoReset (holdTicks s + 1) s →
    lineOe s = false ∧
    (∀ k, 1 ≤ k → k ≤ holdTicks s →
      AfterHolds k s fun u => u.state = .trigger ∧ lineOe u = true ∧ lineO u = false) ∧
    AfterHolds (holdTicks s + 1) s fun u => u.state = .awaitRise1 ∧ u.cnt = s.cfg.waitBudget ∧ lineOe u = false

/-- 41_bounded_waits.md R106 (with R90, R91, R92, R105): a wait entered now, with `cnt = B`, ends with a hit at the first
tick `h < B` whose poll reads the awaited level, after `h` misses that change only `cnt`, and the next state begins at
`h + 1`; or, if all `B` polls miss, in Error at `B`. `bitcnt` and `shreg` are kept either way. -/
def Obligations.WaitEndsWithinTheBudget : Prop :=
  ∀ s : State, isWait s.state = true → s.cnt = s.cfg.waitBudget → s.cfg.wf = true →
    (∀ h, h < s.cfg.waitBudget.toNat → NoReset (h + 1) s → (∀ j, j < h → s.lineAt j ≠ tgt s.state) →
      s.lineAt h = tgt s.state →
      (∀ j, j ≤ h → AfterHolds j s fun u => u.state = s.state ∧ u.cnt.toNat = s.cfg.waitBudget.toNat - j) ∧
      AfterHolds (h + 1) s fun u =>
        u.bitcnt = s.bitcnt ∧ u.shreg = s.shreg ∧
        (s.state = .awaitRise1 → u.state = .awaitFall ∧ u.cnt = s.cfg.waitBudget) ∧
        (s.state = .awaitFall → u.state = .awaitRise2 ∧ u.cnt = s.cfg.waitBudget) ∧
        (s.state = .awaitRise2 → u.state = .bitWait ∧ u.cnt = s.cfg.waitBudget) ∧
        (s.state = .bitWait → u.state = .settle ∧ u.cnt = s.cfg.settleTicks)) ∧
    (NoReset s.cfg.waitBudget.toNat s → (∀ j, j < s.cfg.waitBudget.toNat → s.lineAt j ≠ tgt s.state) →
      (∀ j, j < s.cfg.waitBudget.toNat →
        AfterHolds j s fun u => u.state = s.state ∧ u.cnt.toNat = s.cfg.waitBudget.toNat - j) ∧
      AfterHolds s.cfg.waitBudget.toNat s fun u =>
        u.state = .error ∧ u.cnt = 0 ∧ u.bitcnt = s.bitcnt ∧ u.shreg = s.shreg)

/-- 42_bit_decode.md R110 and R114: if BIT.HIT executes now, SETTLE.HOLD executes at the ticks 1 to `S - 1`, SAMPLE at
tick `S`, and it shifts in the level of the line at tick `S`, whatever the line did in between; then, unless that was bit
39, BitWait begins at tick `S + 1`. The last clause needs R30 for the push, so it takes the invariant. -/
def Obligations.SampleFallsSettleTicksAfterTheHit : Prop :=
  ∀ s : State, Runs .bitHit s → s.cfg.wf = true → NoReset (s.cfg.settleTicks.toNat + 1) s →
    (∀ k, 1 ≤ k → k < s.cfg.settleTicks.toNat → AfterHolds k s fun u => Runs .settleHold u ∧ lineOe u = false) ∧
    AfterHolds s.cfg.settleTicks.toNat s (fun u =>
      Runs .sample u ∧ u.now.lineI = s.lineAt s.cfg.settleTicks.toNat ∧ u.bitcnt = s.bitcnt ∧ u.shreg = s.shreg) ∧
    (Inv s → AfterHolds (s.cfg.settleTicks.toNat + 1) s fun u =>
      (s.bitcnt ≠ 39 → u.state = .bitWait ∧ u.cnt = s.cfg.waitBudget ∧ u.bitcnt = s.bitcnt + 1 ∧
        (s.bitcnt.toNat % 8 ≠ 7 → u.shreg = shifted s.shreg (s.lineAt s.cfg.settleTicks.toNat))) ∧
      (s.bitcnt = 39 → u.state = .idle ∧ u.bitcnt = 0))

/-- 42_bit_decode.md R115: a low phase of `L` ticks from the detecting poll and then a high pulse of `w` ticks, low
after it: the level sampled is 1 if and only if `L <= S <= L + w - 1`; for `L = 1`, the fixture `PULSE(w)`, if and only
if `w >= S`; and for every `S` from 15 to 34 the pulse of 14 ticks gives 0 and that of 35 ticks gives 1. -/
def Obligations.PulseWidthsAreClassified : Prop :=
  ∀ (s : State) (L w : Nat), Runs .bitHit s → s.cfg.wf = true → NoReset (s.cfg.settleTicks.toNat + 1) s → 1 ≤ L →
    (∀ j, j ≤ s.cfg.settleTicks.toNat → s.lineAt j = decide (L ≤ j ∧ j < L + w)) →
    AfterHolds s.cfg.settleTicks.toNat s fun u =>
      Runs .sample u ∧
      (u.now.lineI = true ↔ L ≤ s.cfg.settleTicks.toNat ∧ s.cfg.settleTicks.toNat ≤ L + w - 1) ∧
      (L = 1 → (u.now.lineI = true ↔ s.cfg.settleTicks.toNat ≤ w)) ∧
      (L = 1 → 15 ≤ s.cfg.settleTicks.toNat → s.cfg.settleTicks.toNat ≤ 34 →
        (w = 14 → u.now.lineI = false) ∧ (w = 35 → u.now.lineI = true))

/-- The cell hazard (70_reset_and_hazards.md R176 (a) and (b)). BIT.HIT executes now, `d` ticks into the low phase of a
cell of `L` low ticks and a pulse of `w`, which the next cell's low phase follows; the sample falls `d + S` ticks after the
cell's start. (a) The sample reads 1 exactly when `L <= d + S <= L + w - 1`, as long as it falls before the next cell's
pulse; then the next BIT.HIT is on the next cell's first low tick if that comes within `B` polls, and otherwise the last
poll times out. (b) The sample reads 0 and the next cell is caught at once, by a BIT.HIT on the very next tick, in its low
phase, exactly when `L + w <= d + S <= 2L + w - 2`. -/
def Obligations.CellsAreCaughtAsStated : Prop :=
  ∀ (s : State) (d L w : Nat), Runs .bitHit s → Inv s → s.bitcnt ≠ 39 → d < L → 1 ≤ w →
    let S := s.cfg.settleTicks.toNat
    let B := s.cfg.waitBudget.toNat
    (NoReset (S + 1) s → CellAndNextLow s d L w S → d + S < 2 * L + w →
      (AfterHolds S s (fun u => Runs .sample u ∧ u.now.lineI = true) ↔ L ≤ d + S ∧ d + S ≤ L + w - 1)) ∧
    (NoReset (L + w - d + 1) s → CellAndNextLow s d L w (L + w - d) → L ≤ d + S → d + S ≤ L + w - 1 →
      (L + w - (d + S) ≤ B →
        AfterHolds (L + w - d) s fun u => Runs .bitHit u ∧ u.bitcnt = s.bitcnt + 1) ∧
      (B < L + w - (d + S) →
        AfterHolds (S + B) s fun u => Runs .bitTimeout u ∧ u.bitcnt = s.bitcnt + 1)) ∧
    (NoReset (S + 2) s → CellAndNextLow s d L w (S + 1) →
      (AfterHolds S s (fun u => Runs .sample u ∧ u.now.lineI = false) ∧
        AfterHolds (S + 1) s (fun u => Runs .bitHit u ∧ u.bitcnt = s.bitcnt + 1) ∧
        L + w ≤ d + S + 1 ∧ d + S + 1 < 2 * L + w ↔
      L + w ≤ d + S ∧ d + S ≤ 2 * L + w - 2))

/-- 43_error_fill_and_output.md R120: Error lasts exactly `40 - bitcnt` ticks and ends in Idle, whatever the line and the
host do; every tick of it is an ERR.FILL, with the line released. -/
def Obligations.ErrorLastsTheRestOfTheFrame : Prop :=
  ∀ s : State, Inv s → s.state = .error → NoReset (40 - s.bitcnt.toNat) s →
    (∀ k, k < 40 - s.bitcnt.toNat →
      AfterHolds k s fun u => Runs .errFill u ∧ u.bitcnt.toNat = s.bitcnt.toNat + k ∧ u.cnt = 0 ∧ lineOe u = false) ∧
    AfterHolds (40 - s.bitcnt.toNat) s fun u => u.state = .idle ∧ u.bitcnt = 0 ∧ u.shreg = 0 ∧ u.cnt = 0

/-- Every transaction delivers exactly five bytes, on every path (43_error_fill_and_output.md R125; 70 R180 (a)),
and their bits, first bit at bit 7 of the first byte (20_memory.md R47), are the levels sampled, in order, and then zeros
(43 R122; 70 R180 (d)). The hypothesis on resets covers the longest transaction (70 R179). -/
def Obligations.TransactionDeliversSamplesThenZeros : Prop :=
  ∀ s : State, Inv s → Starts s → NoReset (transactionBound s + 1) s →
    ∃ T, T ≤ transactionBound s ∧
      (∀ k, 1 ≤ k → k ≤ T → AfterHolds k s fun u => u.state ≠ .idle) ∧
      AfterHolds (T + 1) s fun t => t.state = .idle ∧
        ∃ bytes : List Byte, bytes.length = 5 ∧ stream t = stream s ++ bytes ∧
          (samples (T + 1) s).length ≤ 40 ∧
          ∀ i, i < 40 → frameBit bytes i = (samples (T + 1) s).getD i false

/-- The length of a transaction (70_reset_and_hazards.md R179, the bounds over all paths; R180 (b)): busy during
the `T` ticks after START and in Idle after them, with `min(N' + B + 40, N' + 43 + 40*S) <= T <= N' + 43*B + 40*S`. -/
def Obligations.TransactionLengthIsBounded : Prop :=
  ∀ s : State, Inv s → Starts s → NoReset (transactionBound s + 1) s →
    ∃ T, min (holdTicks s + s.cfg.waitBudget.toNat + 40) (holdTicks s + 43 + 40 * s.cfg.settleTicks.toNat) ≤ T ∧
      T ≤ holdTicks s + 43 * s.cfg.waitBudget.toNat + 40 * s.cfg.settleTicks.toNat ∧
      (∀ k, 1 ≤ k → k ≤ T → AfterHolds k s fun u => busy u = true) ∧
      AfterHolds (T + 1) s fun t => t.state = .idle

/-- Bit = sample (70_reset_and_hazards.md R180 (c); 42 R114): in every run from Idle without reset, the `i`-th
level sampled is the level of the line `S` ticks after the `i`-th BIT.HIT. -/
def Obligations.EverySampleIsTheLineAfterItsHit : Prop :=
  ∀ (n : Nat) (s : State), Inv s → s.state = .idle → NoReset n s →
    (samples n s).length ≤ (bitHits n s).length ∧
    ∀ i, i < (samples n s).length →
      (samples n s).getD i false = s.lineAt ((bitHits n s).getD i 0 + s.cfg.settleTicks.toNat)

/-- 70_reset_and_hazards.md R180 (a) to (f), of every transaction: for every line waveform, every host schedule and every
`B >= 1`, `S >= 1`. The hypothesis on resets covers the longest transaction. -/
def Obligations.TransactionsHaveTheListedProperties : Prop :=
  ∀ s : State, Inv s → Starts s → NoReset (transactionBound s + 1) s →
    ∃ T t bytes, TransactionRun T s t ∧ TransactionProperties T s t bytes

/-- 70_reset_and_hazards.md R180 (b): the block has no state from which it cannot reach Idle. From every state with the
invariant, under every line waveform and every host schedule, resets or not, it is in Idle after at most
`max(cnt, 1) + 43*B + 40*S` ticks. -/
def Obligations.EveryStateReachesIdle : Prop :=
  ∀ s : State, Inv s → ∃ k, k ≤ idleBound s ∧ AfterHolds k s fun u => u.state = .idle

/-- 70_reset_and_hazards.md R180, its last sentence, with 44 R141 and 90_conflicts.md C2: that a failed transaction yields
an invalid frame is false. -/
def Obligations.FailedFramesAreNotAlwaysInvalid : Prop := ¬ FailedFramesAreInvalid

/-- 70_reset_and_hazards.md R174: once a transaction runs, nothing the host does on the request or output port changes its
course. Two runs from states with the same control state, counters and accumulator, under the same line levels and the
same resets, agree on them at the end, whatever their FIFOs and host inputs, for as long as the first is busy. -/
def Obligations.HostCannotChangeARunningTransaction : Prop :=
  ∀ (n : Nat) (s s' t t' : State), SameFsm s s' →
    (∀ k, k < n → s.lineAt k = s'.lineAt k ∧ (s.inputAt k).rst = (s'.inputAt k).rst) →
    (∀ k, k < n → AfterHolds k s fun u => u.state ≠ .idle) →
    after n s = .next t → after n s' = .next t' → SameFsm t t'

/-! ## The host's side -/

/-- 44_host_driver_contract.md R142 (with R135 to R139): the three properties of `read()` on a frame, the values given as
tenths and divided by ten exactly, and the source's example. -/
def Obligations.ReadConvertsValidFramesOnly : Prop :=
  (∀ f : Frame,
    (f.valid = true ↔ (f.b0.toNat + f.b1.toNat + f.b2.toNat + f.b3.toNat) % 256 = f.b4.toNat) ∧
    (f.valid = true →
      f.reading = some ⟨256 * f.b2.toNat + f.b3.toNat, 256 * f.b0.toNat + f.b1.toNat⟩ ∧
      ∃ T H : Decimal, f.readResult = (some T, some H) ∧
        10 * T.units + T.tenth = 256 * f.b2.toNat + f.b3.toNat ∧ T.tenth < 10 ∧
        10 * H.units + H.tenth = 256 * f.b0.toNat + f.b1.toNat ∧ H.tenth < 10) ∧
    (f.valid = false → f.readResult = (none, none))) ∧
  Frame.readResult ⟨0x01, 0x90, 0x00, 0xC8, 0x59⟩ = (some ⟨20, 0⟩, some ⟨40, 0⟩)

/-- Which failure frames the checksum catches (44_host_driver_contract.md R141): a frame whose last byte is 0 is valid if
and only if its four data bytes sum to a multiple of 256; and a transaction in which no bit is sampled, which is every
timeout of a handshake wait or of bit 0, delivers `00 00 00 00 00`, which `read()` reports as present. -/
def Obligations.EmptyTransactionReadsAsPresent : Prop :=
  (∀ f : Frame, f.b4 = 0 →
    (f.valid = true ↔ (f.b0.toNat + f.b1.toNat + f.b2.toNat + f.b3.toNat) % 256 = 0)) ∧
  (∀ s : State, Inv s → Starts s → NoReset (transactionBound s + 1) s →
    ∃ T, T ≤ transactionBound s ∧ (∀ k, 1 ≤ k → k ≤ T → AfterHolds k s fun u => u.state ≠ .idle) ∧
      AfterHolds (T + 1) s fun t => t.state = .idle ∧
        (samples (T + 1) s = [] →
          stream t = stream s ++ [0, 0, 0, 0, 0] ∧
          (Frame.ofBytes [0, 0, 0, 0, 0]).map Frame.readResult = some (some ⟨0, 0⟩, some ⟨0, 0⟩)))

/-- `read()` ends (44_host_driver_contract.md R131, R134): from a clean Idle, under every line waveform, the
driver has its five bytes within `N' + 43*B + 40*S + 2` ticks; they are the bytes the host took since the start, and the
result is that of their frame. The number of ticks rests on a choice of the model: this driver pops each byte as soon as
it appears (DESIGN CHOICE, log 12), where the spec lets a driver take as long as it likes. -/
def Obligations.ReadEndsWithTheFrame : Prop :=
  ∀ (y : Station) (ls : List Level), Inv y.block → y.block.state = .idle → y.block.fifo = [] →
    y.driver.phase = .requesting →
    max y.driver.cfg.triggerTicks.toNat 1 + 43 * y.block.cfg.waitBudget.toNat +
      40 * y.block.cfg.settleTicks.toNat + 2 ≤ ls.length →
    ∃ z f, Station.run ls y = .next z ∧ z.driver.phase = .finished f ∧
      z.block.popped.map Prod.snd = y.block.popped.map Prod.snd ++ f.bytes ∧
      z.block.state = .idle ∧ z.block.fifo = [] ∧ z.driver.result = some f.readResult

/-! ## Stimulus scripts -/

/-- 30_encoding.md R70: a script starts at the first tick after reset is released, in the state of 10_state.md R32, with
the parameters of its PARAM line, or the default 31 or 25 for each that it does not give. That the tick number is then 0
is R70's; that no byte has been taken yet is the model's (log 4). -/
def Obligations.ScriptStartsAfterReset : Prop :=
  ∀ sc : Script, Script.wf sc = true →
    let s := (Bench.start sc).block
    (s.state = .idle ∧ s.cnt = 0 ∧ s.bitcnt = 0 ∧ s.shreg = 0 ∧ s.fifo = [] ∧ s.tick = 0 ∧ s.popped = []) ∧
    (∀ b S, .param b S ∈ sc → s.cfg.waitBudget = b.getD 31 ∧ s.cfg.settleTicks = S.getD 25) ∧
    (sc.any ScriptLine.isParam = false → s.cfg.waitBudget = 31 ∧ s.cfg.settleTicks = 25)

/-- What a stimulus script denotes (30_encoding.md R70). The block never stops under a script; the input ports of every
tick `t` are those that the script's lines give it (`ScriptPorts`: RESET, POP, REQ up to and including the tick of its
START, LINE with the last level held); and running the block under the script is running it on the list of these ports.
Choices of the model (log 8): a request waits for the START of the one before it, DEDUCED; the level of a script without
LINE, the word on a tick without a request and a run of zero ticks, of which R70 says nothing, DESIGN CHOICE. -/
def Obligations.ScriptRunsAsItsInputs : Prop :=
  (∀ (sc : Script) (t : Nat), Script.wf sc = true →
    ∃ b p, Bench.run t (Bench.start sc) = .next b ∧
      (Bench.denote (t + 1) (Bench.start sc))[t]? = some p ∧
      ScriptPorts sc t (Bench.startsWithin t (Bench.start sc)) p) ∧
  (∀ (n : Nat) (b c : Bench), b.block.inputs = [] → Bench.run n b = .next c →
    after n { b.block with inputs := Bench.denote n b } = .next c.block)

/-- 30_encoding.md R71: a script denotes the same input ports, at every tick, with a macro of its LINE line replaced by the
macro's expansion. -/
def Obligations.MacrosDenoteTheirExpansions : Prop :=
  ∀ (before after' : Script) (pre post : List LineItem) (m : LineItem) (n : Nat),
    let sc := before ++ .line (pre ++ m :: post) :: after'
    let S := (scriptConfig sc).settleTicks.toNat
    Bench.denote n (Bench.start sc) =
      Bench.denote n (Bench.start (before ++ .line (pre ++ macroExpansion S m ++ post) :: after'))
end

