-- ==== Sys2Proof/Laws/Decode.lean ====
section
/-! SUPPORT. Decoding by cases: what each dispatch word and each port word selects, and the guard of each operation. -/

namespace Sys2Proof.Machine

/-- The operation table read by state and condition bits (95_test_vectors.md 2.2). -/
def opOf : Ctrl → Bool → Bool → Bool → Instr
  | .idle, a, _, _ => if a then .start else .idleWait
  | .trigger, _, _, t => if t then .trigRelease else .trigHold
  | .awaitRise1, _, h, t => if h then .rise1Hit else if t then .rise1Timeout else .rise1Poll
  | .awaitFall, _, h, t => if h then .fallHit else if t then .fallTimeout else .fallPoll
  | .awaitRise2, _, h, t => if h then .rise2Hit else if t then .rise2Timeout else .rise2Poll
  | .bitWait, _, h, t => if h then .bitHit else if t then .bitTimeout else .bitPoll
  | .settle, _, _, t => if t then .sample else .settleHold
  | .error, _, _, _ => .errFill

theorem decodeDispatch_opOf (c : Ctrl) (a h t : Bool) :
    decodeDispatch (((c.code ++ BitVec.ofBool a) ++ BitVec.ofBool h) ++ BitVec.ofBool t) = some (opOf c a h t) := by
  cases c <;> cases a <;> cases h <;> cases t <;> rfl

/-- The FSM operation of a tick, by state and condition bits: there is always one. -/
theorem fsmOp_eq (s : State) : fsmOp s = some (opOf s.state (acc s) (hit s) (tc s)) :=
  decodeDispatch_opOf _ _ _ _

theorem decodePort_eq (v r : Bool) :
    decodePort (BitVec.ofBool v ++ BitVec.ofBool r) = if v && r then some .pop else none := by
  cases v <;> cases r <;> rfl

/-- The host-port operation of a tick: POP, when a byte is there and the host is ready. -/
theorem portOp_eq (s : State) : portOp s = if outValid s && s.now.outReady then some .pop else none :=
  decodePort_eq _ _

theorem Ctrl_ofCode_code (c : Ctrl) : Ctrl.ofCode c.code = c := by cases c <;> rfl

theorem tc_iff (s : State) : tc s = true ↔ s.cnt.toNat ≤ 1 := by
  simp [tc, BitVec.le_def]

theorem acc_iff (s : State) : acc s = true ↔ s.now.reqValid = true ∧ s.fifo = [] := by
  simp [acc, State.fifoCnt]

theorem hit_iff (s : State) : hit s = true ↔ s.now.lineI = tgt s.state := by
  simp [hit]

end Sys2Proof.Machine
end

