-- ==== Sys2Proof/Laws/State.lean ====
section
/-! SUPPORT. One lemma per field per update of State, and what the updates do to the coming inputs. -/

namespace Sys2Proof.Machine

section
variable (s : State) (c : Ctrl)

@[simp] theorem State.goto_state : (s.goto c).state = c := rfl
@[simp] theorem State.goto_cnt : (s.goto c).cnt = s.cnt := rfl
@[simp] theorem State.goto_bitcnt : (s.goto c).bitcnt = s.bitcnt := rfl
@[simp] theorem State.goto_shreg : (s.goto c).shreg = s.shreg := rfl
@[simp] theorem State.goto_fifo : (s.goto c).fifo = s.fifo := rfl
@[simp] theorem State.goto_cfg : (s.goto c).cfg = s.cfg := rfl
@[simp] theorem State.goto_inputs : (s.goto c).inputs = s.inputs := rfl
@[simp] theorem State.goto_tick : (s.goto c).tick = s.tick := rfl
@[simp] theorem State.goto_popped : (s.goto c).popped = s.popped := rfl

end

section
variable (s : State) (v : Word)

@[simp] theorem State.setCnt_state : (s.setCnt v).state = s.state := rfl
@[simp] theorem State.setCnt_cnt : (s.setCnt v).cnt = v := rfl
@[simp] theorem State.setCnt_bitcnt : (s.setCnt v).bitcnt = s.bitcnt := rfl
@[simp] theorem State.setCnt_shreg : (s.setCnt v).shreg = s.shreg := rfl
@[simp] theorem State.setCnt_fifo : (s.setCnt v).fifo = s.fifo := rfl
@[simp] theorem State.setCnt_cfg : (s.setCnt v).cfg = s.cfg := rfl
@[simp] theorem State.setCnt_inputs : (s.setCnt v).inputs = s.inputs := rfl
@[simp] theorem State.setCnt_tick : (s.setCnt v).tick = s.tick := rfl
@[simp] theorem State.setCnt_popped : (s.setCnt v).popped = s.popped := rfl

end

section
variable (s : State) (v : BitVec 6)

@[simp] theorem State.setBitcnt_state : (s.setBitcnt v).state = s.state := rfl
@[simp] theorem State.setBitcnt_cnt : (s.setBitcnt v).cnt = s.cnt := rfl
@[simp] theorem State.setBitcnt_bitcnt : (s.setBitcnt v).bitcnt = v := rfl
@[simp] theorem State.setBitcnt_shreg : (s.setBitcnt v).shreg = s.shreg := rfl
@[simp] theorem State.setBitcnt_fifo : (s.setBitcnt v).fifo = s.fifo := rfl
@[simp] theorem State.setBitcnt_cfg : (s.setBitcnt v).cfg = s.cfg := rfl
@[simp] theorem State.setBitcnt_inputs : (s.setBitcnt v).inputs = s.inputs := rfl
@[simp] theorem State.setBitcnt_tick : (s.setBitcnt v).tick = s.tick := rfl
@[simp] theorem State.setBitcnt_popped : (s.setBitcnt v).popped = s.popped := rfl

end

section
variable (s : State) (v : Byte)

@[simp] theorem State.setShreg_state : (s.setShreg v).state = s.state := rfl
@[simp] theorem State.setShreg_cnt : (s.setShreg v).cnt = s.cnt := rfl
@[simp] theorem State.setShreg_bitcnt : (s.setShreg v).bitcnt = s.bitcnt := rfl
@[simp] theorem State.setShreg_shreg : (s.setShreg v).shreg = v := rfl
@[simp] theorem State.setShreg_fifo : (s.setShreg v).fifo = s.fifo := rfl
@[simp] theorem State.setShreg_cfg : (s.setShreg v).cfg = s.cfg := rfl
@[simp] theorem State.setShreg_inputs : (s.setShreg v).inputs = s.inputs := rfl
@[simp] theorem State.setShreg_tick : (s.setShreg v).tick = s.tick := rfl
@[simp] theorem State.setShreg_popped : (s.setShreg v).popped = s.popped := rfl

end

section
variable (s : State)

@[simp] theorem State.countDown_state : s.countDown.state = s.state := rfl
@[simp] theorem State.countDown_cnt : s.countDown.cnt = s.cnt - 1 := rfl
@[simp] theorem State.countDown_bitcnt : s.countDown.bitcnt = s.bitcnt := rfl
@[simp] theorem State.countDown_shreg : s.countDown.shreg = s.shreg := rfl
@[simp] theorem State.countDown_fifo : s.countDown.fifo = s.fifo := rfl
@[simp] theorem State.countDown_cfg : s.countDown.cfg = s.cfg := rfl
@[simp] theorem State.countDown_inputs : s.countDown.inputs = s.inputs := rfl
@[simp] theorem State.countDown_tick : s.countDown.tick = s.tick := rfl
@[simp] theorem State.countDown_popped : s.countDown.popped = s.popped := rfl

end

section
variable (s : State) (i : Inputs)

@[simp] theorem State.withNow_state : (s.withNow i).state = s.state := rfl
@[simp] theorem State.withNow_cnt : (s.withNow i).cnt = s.cnt := rfl
@[simp] theorem State.withNow_bitcnt : (s.withNow i).bitcnt = s.bitcnt := rfl
@[simp] theorem State.withNow_shreg : (s.withNow i).shreg = s.shreg := rfl
@[simp] theorem State.withNow_fifo : (s.withNow i).fifo = s.fifo := rfl
@[simp] theorem State.withNow_cfg : (s.withNow i).cfg = s.cfg := rfl
@[simp] theorem State.withNow_inputs : (s.withNow i).inputs = i :: s.inputs.tail := rfl
@[simp] theorem State.withNow_tick : (s.withNow i).tick = s.tick := rfl
@[simp] theorem State.withNow_popped : (s.withNow i).popped = s.popped := rfl

end

section
variable (s : State)

@[simp] theorem State.resetRegs_state : s.resetRegs.state = .idle := rfl
@[simp] theorem State.resetRegs_cnt : s.resetRegs.cnt = 0 := rfl
@[simp] theorem State.resetRegs_bitcnt : s.resetRegs.bitcnt = 0 := rfl
@[simp] theorem State.resetRegs_shreg : s.resetRegs.shreg = 0 := rfl
@[simp] theorem State.resetRegs_fifo : s.resetRegs.fifo = [] := rfl
@[simp] theorem State.resetRegs_cfg : s.resetRegs.cfg = s.cfg := rfl
@[simp] theorem State.resetRegs_inputs : s.resetRegs.inputs = s.inputs := rfl
@[simp] theorem State.resetRegs_tick : s.resetRegs.tick = s.tick := rfl
@[simp] theorem State.resetRegs_popped : s.resetRegs.popped = s.popped := rfl

end

section
variable (s : State)

@[simp] theorem State.advance_state : s.advance.state = s.state := rfl
@[simp] theorem State.advance_cnt : s.advance.cnt = s.cnt := rfl
@[simp] theorem State.advance_bitcnt : s.advance.bitcnt = s.bitcnt := rfl
@[simp] theorem State.advance_shreg : s.advance.shreg = s.shreg := rfl
@[simp] theorem State.advance_fifo : s.advance.fifo = s.fifo := rfl
@[simp] theorem State.advance_cfg : s.advance.cfg = s.cfg := rfl
@[simp] theorem State.advance_inputs : s.advance.inputs = s.inputs.tail := rfl
@[simp] theorem State.advance_tick : s.advance.tick = s.tick + 1 := rfl
@[simp] theorem State.advance_popped : s.advance.popped = s.popped := rfl

end

/-! The exception entry, `raiseTimingFailure`. -/

section
variable (w : Nat) (s : State)

@[simp] theorem raiseTimingFailure_state : (raiseTimingFailure w s).state = .error := rfl
@[simp] theorem raiseTimingFailure_cnt : (raiseTimingFailure w s).cnt = 0 := rfl
@[simp] theorem raiseTimingFailure_bitcnt : (raiseTimingFailure w s).bitcnt = s.bitcnt := rfl
@[simp] theorem raiseTimingFailure_shreg : (raiseTimingFailure w s).shreg = s.shreg := rfl
@[simp] theorem raiseTimingFailure_fifo : (raiseTimingFailure w s).fifo = s.fifo := rfl
@[simp] theorem raiseTimingFailure_cfg : (raiseTimingFailure w s).cfg = s.cfg := rfl
@[simp] theorem raiseTimingFailure_inputs : (raiseTimingFailure w s).inputs = s.inputs := rfl
@[simp] theorem raiseTimingFailure_tick : (raiseTimingFailure w s).tick = s.tick := rfl
@[simp] theorem raiseTimingFailure_popped : (raiseTimingFailure w s).popped = s.popped := rfl

end

/-! The coming inputs depend on `inputs` and `tick` alone. -/

theorem State.inputAt_congr {s t : State} (hi : s.inputs = t.inputs) (ht : s.tick = t.tick) (k : Nat) :
    s.inputAt k = t.inputAt k := by
  simp only [State.inputAt, hi, ht]

theorem State.now_congr {s t : State} (hi : s.inputs = t.inputs) (ht : s.tick = t.tick) : s.now = t.now :=
  State.inputAt_congr hi ht 0

@[simp] theorem State.withNow_now (s : State) (i : Inputs) : (s.withNow i).now = i := rfl

@[simp] theorem State.withNow_inputAt_succ (s : State) (i : Inputs) (k : Nat) :
    (s.withNow i).inputAt (k + 1) = s.inputAt (k + 1) := by
  cases h : s.inputs <;> simp [State.inputAt, State.withNow, h]

@[simp] theorem State.advance_inputAt (s : State) (k : Nat) : s.advance.inputAt k = s.inputAt (k + 1) := by
  cases h : s.inputs <;> simp [State.inputAt, State.advance, h, Nat.add_comm, Nat.add_left_comm]

@[simp] theorem State.advance_now (s : State) : s.advance.now = s.inputAt 1 := State.advance_inputAt s 0

@[simp] theorem State.advance_lineAt (s : State) (k : Nat) : s.advance.lineAt k = s.lineAt (k + 1) := by
  simp [State.lineAt]

end Sys2Proof.Machine
end

