-- ==== Sys2Proof/Laws/Ops.lean ====
section
/-! SUPPORT. What each shared operation can do, said once. -/

namespace Sys2Proof.Machine

@[simp] theorem andThen_next (s : State) (f : State → Answer) : andThen (.next s) f = f s := rfl

@[simp] theorem andThen_fault (r : Fault) (f : State → Answer) : andThen (.fault r) f = .fault r := rfl

@[simp] theorem andThen_refused (r : Refusal) (f : State → Answer) : andThen (.refused r) f = .refused r := rfl

theorem andThen_eq_next {o : Answer} {f : State → Answer} {t : State} (h : andThen o f = .next t) :
    ∃ s, o = .next s ∧ f s = .next t := by
  cases o with
  | next s => exact ⟨s, rfl, h⟩
  | fault r => cases h
  | refused r => cases h

/-- A push answers next exactly when there is room, and then only the tail of the FIFO is new. -/
theorem fifoPush_of_lt {v : Byte} {s : State} (h : s.fifo.length < 5) :
    fifoPush v s = .next { s with fifo := s.fifo ++ [v] } := by
  simp [fifoPush, State.fifoCnt, fifoDepth, h]

theorem fifoPush_of_full {v : Byte} {s : State} (h : ¬ s.fifo.length < 5) : fifoPush v s = .fault .fifoOverflow := by
  simp [fifoPush, State.fifoCnt, fifoDepth, h]

section
variable (s : State)

@[simp] theorem fifoPop_state : (fifoPop s).state = s.state := by unfold fifoPop; split <;> rfl
@[simp] theorem fifoPop_cnt : (fifoPop s).cnt = s.cnt := by unfold fifoPop; split <;> rfl
@[simp] theorem fifoPop_bitcnt : (fifoPop s).bitcnt = s.bitcnt := by unfold fifoPop; split <;> rfl
@[simp] theorem fifoPop_shreg : (fifoPop s).shreg = s.shreg := by unfold fifoPop; split <;> rfl
@[simp] theorem fifoPop_cfg : (fifoPop s).cfg = s.cfg := by unfold fifoPop; split <;> rfl
@[simp] theorem fifoPop_inputs : (fifoPop s).inputs = s.inputs := by unfold fifoPop; split <;> rfl
@[simp] theorem fifoPop_tick : (fifoPop s).tick = s.tick := by unfold fifoPop; split <;> rfl
@[simp] theorem fifoPop_fifo : (fifoPop s).fifo = s.fifo.tail := by
  unfold fifoPop; split <;> rename_i h <;> simp [h]

theorem fifoPop_popped : (fifoPop s).popped = s.popped ++ (s.fifo.take 1).map (Prod.mk s.tick) := by
  unfold fifoPop; split <;> rename_i h <;> simp [h]

end

/-- POP leaves the stream of pushed bytes as it is. -/
theorem fifoPop_stream (s : State) :
    (fifoPop s).popped.map Prod.snd ++ (fifoPop s).fifo = s.popped.map Prod.snd ++ s.fifo := by
  rw [fifoPop_popped, fifoPop_fifo]
  cases s.fifo <;> simp

theorem bitPos_toNat (s : State) : s.bitPos.toNat = s.bitcnt.toNat % 8 := by
  simp [State.bitPos]

theorem bitPos_eq_seven (s : State) : s.bitPos = 7 ↔ s.bitcnt.toNat % 8 = 7 := by
  rw [← bitPos_toNat, ← BitVec.toNat_inj]; rfl

/-- The shifted byte as a number (42_bit_decode.md R112). -/
theorem shifted_toNat (v : Byte) (b : Bool) : (shifted v b).toNat = (2 * v.toNat + b.toNat) % 256 := by
  revert v b; decide

theorem countBit_last {s : State} (h : s.bitcnt = 39) :
    countBit s = { s with state := .idle, cnt := 0, bitcnt := 0 } := by
  unfold countBit; rw [if_pos h]; rfl

theorem countBit_more {s : State} (h : s.bitcnt ≠ 39) : countBit s = { s with bitcnt := s.bitcnt + 1 } := by
  unfold countBit; rw [if_neg h]; rfl

/-- SHIFTIN inside a byte: no push. -/
theorem shiftIn_inside {b : Bool} {s : State} (h : s.bitcnt.toNat % 8 ≠ 7) :
    shiftIn b s = .next { s with shreg := shifted s.shreg b, bitcnt := s.bitcnt + 1 } := by
  have h39 : s.bitcnt ≠ 39 := by rintro e; rw [e] at h; exact h rfl
  unfold shiftIn
  rw [if_neg ((bitPos_eq_seven s).not.mpr h), countBit_more (s := s.setShreg (shifted s.shreg b)) h39]
  rfl

/-- SHIFTIN at the end of a byte with room in the FIFO. -/
theorem shiftIn_push {b : Bool} {s : State} (h : s.bitcnt.toNat % 8 = 7) (hf : s.fifo.length < 5) :
    shiftIn b s =
      .next (if s.bitcnt = 39
        then { s with shreg := 0, fifo := s.fifo ++ [shifted s.shreg b], bitcnt := 0, state := .idle, cnt := 0 }
        else { s with shreg := 0, fifo := s.fifo ++ [shifted s.shreg b], bitcnt := s.bitcnt + 1 }) := by
  unfold shiftIn
  rw [if_pos ((bitPos_eq_seven s).mpr h), fifoPush_of_lt hf, andThen_next]
  by_cases e : s.bitcnt = 39
  · rw [if_pos e, countBit_last (by exact e)]; rfl
  · rw [if_neg e, countBit_more (by exact e)]; rfl

/-- SHIFTIN at the end of a byte into a full FIFO: the model's fault. -/
theorem shiftIn_full {b : Bool} {s : State} (h : s.bitcnt.toNat % 8 = 7) (hf : ¬ s.fifo.length < 5) :
    shiftIn b s = .fault .fifoOverflow := by
  unfold shiftIn
  rw [if_pos ((bitPos_eq_seven s).mpr h), fifoPush_of_full hf, andThen_fault]

/-- All that SHIFTIN can do when it answers next. -/
theorem shiftIn_cases {b : Bool} {s t : State} (h : shiftIn b s = .next t) :
    (s.bitcnt.toNat % 8 ≠ 7 ∧ t = { s with shreg := shifted s.shreg b, bitcnt := s.bitcnt + 1 }) ∨
    (s.bitcnt.toNat % 8 = 7 ∧ s.bitcnt ≠ 39 ∧ s.fifo.length < 5 ∧
      t = { s with shreg := 0, fifo := s.fifo ++ [shifted s.shreg b], bitcnt := s.bitcnt + 1 }) ∨
    (s.bitcnt = 39 ∧ s.fifo.length < 5 ∧
      t = { s with shreg := 0, fifo := s.fifo ++ [shifted s.shreg b], bitcnt := 0, state := .idle, cnt := 0 }) := by
  by_cases hp : s.bitcnt.toNat % 8 = 7
  · by_cases hf : s.fifo.length < 5
    · rw [shiftIn_push hp hf] at h
      by_cases e : s.bitcnt = 39
      · right; right; simp only [e, if_true] at h; cases h; exact ⟨e, hf, rfl⟩
      · right; left; simp only [e, if_false] at h; cases h; exact ⟨hp, e, hf, rfl⟩
    · rw [shiftIn_full hp hf] at h; cases h
  · left; rw [shiftIn_inside hp] at h; cases h; exact ⟨hp, rfl⟩

end Sys2Proof.Machine
end

