-- ==== Sys2Proof/Laws/Step.lean ====
section
/-! SUPPORT. What a tick can do, said once. -/

namespace Sys2Proof.Machine

/-- The machine after the tick's POP, if there is one: the registers the FSM operation then reads. -/
def portDone (s : State) : State := if outValid s && s.now.outReady then fifoPop s else s

section
variable (s : State)

@[simp] theorem portDone_state : (portDone s).state = s.state := by unfold portDone; split <;> simp
@[simp] theorem portDone_cnt : (portDone s).cnt = s.cnt := by unfold portDone; split <;> simp
@[simp] theorem portDone_bitcnt : (portDone s).bitcnt = s.bitcnt := by unfold portDone; split <;> simp
@[simp] theorem portDone_shreg : (portDone s).shreg = s.shreg := by unfold portDone; split <;> simp
@[simp] theorem portDone_cfg : (portDone s).cfg = s.cfg := by unfold portDone; split <;> simp
@[simp] theorem portDone_inputs : (portDone s).inputs = s.inputs := by unfold portDone; split <;> simp
@[simp] theorem portDone_tick : (portDone s).tick = s.tick := by unfold portDone; split <;> simp
@[simp] theorem portDone_inputAt (k : Nat) : (portDone s).inputAt k = s.inputAt k :=
  State.inputAt_congr (by simp) (by simp) k
@[simp] theorem portDone_now : (portDone s).now = s.now := portDone_inputAt s 0

theorem portDone_fifo_length : (portDone s).fifo.length ≤ s.fifo.length := by
  unfold portDone; split <;> simp

theorem portDone_stream :
    (portDone s).popped.map Prod.snd ++ (portDone s).fifo = s.popped.map Prod.snd ++ s.fifo := by
  unfold portDone; split
  · exact fifoPop_stream s
  · rfl

theorem portDone_of_nil (h : s.fifo = []) : portDone s = s := by
  simp [portDone, outValid, State.fifoCnt, h]

end

theorem step_of_rst {s : State} (h : s.now.rst = true) : step s = .next s.resetRegs.advance := by
  simp [step, h]

/-- A tick without reset: the FSM operation of the dispatch word, on the machine after the tick's POP. -/
theorem step_of_not_rst {s : State} (h : s.now.rst = false) :
    step s = andThen (exec (opOf s.state (acc s) (hit s) (tc s)) (portDone s)) fun u => .next u.advance := by
  by_cases hp : (outValid s && s.now.outReady) = true
  · simp [step, h, fsmOp_eq, portOp_eq, portDone, hp, stepPort, exec, execPop]
  · simp [step, h, fsmOp_eq, portOp_eq, portDone, hp, stepPort]

/-- A next state of a tick without reset is that of its FSM operation, a tick later. -/
theorem step_eq_next {s : State} {t : State} (h : step s = .next t) (hr : s.now.rst = false) :
    ∃ u, exec (opOf s.state (acc s) (hit s) (tc s)) (portDone s) = .next u ∧ t = u.advance := by
  rw [step_of_not_rst hr] at h
  obtain ⟨u, hu, ht⟩ := andThen_eq_next h
  exact ⟨u, hu, by cases ht; rfl⟩

end Sys2Proof.Machine
end

