-- ==== Sys2Proof/Laws/Ticks.lean ====
section
/-! SUPPORT. The tick of each control state, and the laws of runs: what later proofs cite instead of unfolding `step`. -/

namespace Sys2Proof.Machine

/-- Where a hit leads (41_bounded_waits.md R90). -/
def hitNext : Ctrl → Ctrl
  | .awaitRise1 => .awaitFall
  | .awaitFall => .awaitRise2
  | .awaitRise2 => .bitWait
  | .bitWait => .settle
  | .idle => .idle
  | .trigger => .trigger
  | .settle => .settle
  | .error => .error

/-- What a hit loads (41_bounded_waits.md R90). -/
def hitLoad (c : Config) : Ctrl → Word
  | .bitWait => c.settleTicks
  | .awaitRise1 | .awaitFall | .awaitRise2 | .idle | .trigger | .settle | .error => c.waitBudget

section
variable {s : State}

theorem tc_false_iff : tc s = false ↔ 1 < s.cnt.toNat := by
  rw [← Bool.not_eq_true, tc_iff]; omega

theorem hit_false_iff : hit s = false ↔ s.now.lineI ≠ tgt s.state := by
  rw [← Bool.not_eq_true, hit_iff]

theorem step_idle (hr : s.now.rst = false) (hs : s.state = .idle) (ha : acc s = false) :
    step s = .next (portDone s).advance := by
  rw [step_of_not_rst hr, hs, ha]; rfl

theorem step_start (hr : s.now.rst = false) (hs : s.state = .idle) (ha : acc s = true) :
    step s = .next (((((s.setCnt s.now.reqTicks).setBitcnt 0).setShreg 0).goto .trigger).advance) := by
  have hf := ((acc_iff s).mp ha).2
  rw [step_of_not_rst hr, hs, ha, portDone_of_nil s hf]; rfl

theorem step_trigHold (hr : s.now.rst = false) (hs : s.state = .trigger) (hc : 1 < s.cnt.toNat) :
    step s = .next (portDone s).countDown.advance := by
  rw [step_of_not_rst hr, hs, tc_false_iff.mpr hc]; rfl

theorem step_trigRelease (hr : s.now.rst = false) (hs : s.state = .trigger) (hc : s.cnt.toNat ≤ 1) :
    step s = .next (((portDone s).setCnt s.cfg.waitBudget).goto .awaitRise1).advance := by
  rw [step_of_not_rst hr, hs, (tc_iff s).mpr hc, ← portDone_cfg s]; rfl

theorem step_hit (hr : s.now.rst = false) (hw : isWait s.state = true) (hh : s.now.lineI = tgt s.state) :
    step s = .next (((portDone s).setCnt (hitLoad s.cfg s.state)).goto (hitNext s.state)).advance := by
  rw [step_of_not_rst hr, (hit_iff s).mpr hh, ← portDone_cfg s]
  cases hs : s.state <;> simp [hs, isWait] at hw <;> rfl

theorem step_poll (hr : s.now.rst = false) (hw : isWait s.state = true) (hm : s.now.lineI ≠ tgt s.state)
    (hc : 1 < s.cnt.toNat) : step s = .next (portDone s).countDown.advance := by
  rw [step_of_not_rst hr, hit_false_iff.mpr hm, tc_false_iff.mpr hc]
  cases hs : s.state <;> simp [hs, isWait] at hw <;> rfl

theorem step_timeout (hr : s.now.rst = false) (hw : isWait s.state = true) (hm : s.now.lineI ≠ tgt s.state)
    (hc : s.cnt.toNat ≤ 1) : step s = .next (((portDone s).goto .error).setCnt 0).advance := by
  rw [step_of_not_rst hr, hit_false_iff.mpr hm, (tc_iff s).mpr hc]
  cases hs : s.state <;> simp [hs, isWait] at hw <;> rfl

theorem step_settleHold (hr : s.now.rst = false) (hs : s.state = .settle) (hc : 1 < s.cnt.toNat) :
    step s = .next (portDone s).countDown.advance := by
  rw [step_of_not_rst hr, hs, tc_false_iff.mpr hc]; rfl

theorem step_sample (hr : s.now.rst = false) (hs : s.state = .settle) (hc : s.cnt.toNat ≤ 1) :
    step s = andThen (shiftIn s.now.lineI (((portDone s).goto .bitWait).setCnt s.cfg.waitBudget)) fun u =>
      .next u.advance := by
  rw [step_of_not_rst hr, hs, (tc_iff s).mpr hc, ← portDone_cfg s, ← portDone_now s]; rfl

theorem step_error (hr : s.now.rst = false) (hs : s.state = .error) :
    step s = andThen (shiftIn false (portDone s)) fun u => .next u.advance := by
  rw [step_of_not_rst hr, hs]; rfl

end

/-! Runs. -/

@[simp] theorem after_zero (s : State) : after 0 s = .next s := rfl

theorem after_succ (n : Nat) (s : State) : after (n + 1) s = andThen (step s) (after n) := rfl

theorem after_succ_of_step {s t : State} (h : step s = .next t) (n : Nat) : after (n + 1) s = after n t := by
  rw [after_succ, h, andThen_next]

theorem afterHolds_zero {s : State} {P : State → Prop} : AfterHolds 0 s P ↔ P s :=
  ⟨fun ⟨_, h, p⟩ => by cases h; exact p, fun p => ⟨s, rfl, p⟩⟩

theorem afterHolds_succ_of_step {s t : State} (h : step s = .next t) {n : Nat} {P : State → Prop} :
    AfterHolds (n + 1) s P ↔ AfterHolds n t P := by
  simp only [AfterHolds, after_succ_of_step h]

/-- A run is its first part and then the rest. -/
theorem after_add (m n : Nat) (s : State) : after (m + n) s = andThen (after m s) (after n) := by
  induction m generalizing s with
  | zero => simp
  | succ m ih =>
    rw [Nat.add_right_comm, after_succ, after_succ]
    cases h : step s <;> simp [ih]

theorem afterHolds_add {m n : Nat} {s t : State} {P : State → Prop} (h : after m s = .next t)
    (ht : AfterHolds n t P) : AfterHolds (m + n) s P := by
  obtain ⟨u, hu, hp⟩ := ht
  exact ⟨u, by rw [after_add, h, andThen_next, hu], hp⟩

/-- Every tick moves the coming inputs on by one. -/
theorem step_inputs_tick {s t : State} (h : step s = .next t) : t.inputs = s.inputs.tail ∧ t.tick = s.tick + 1 := by
  by_cases hr : s.now.rst = true
  · rw [step_of_rst hr] at h; cases h; exact ⟨rfl, rfl⟩
  · obtain ⟨u, hu, rfl⟩ := step_eq_next h (by simpa using hr)
    have key : u.inputs = s.inputs ∧ u.tick = s.tick := by
      generalize opOf s.state (acc s) (hit s) (tc s) = i at hu
      cases i
      case sample => rcases shiftIn_cases hu with ⟨_, rfl⟩ | ⟨_, _, _, rfl⟩ | ⟨_, _, rfl⟩ <;> simp
      case errFill => rcases shiftIn_cases hu with ⟨_, rfl⟩ | ⟨_, _, _, rfl⟩ | ⟨_, _, rfl⟩ <;> simp
      all_goals
        cases hu
        simp
    simp [key]

theorem step_inputAt {s t : State} (h : step s = .next t) (k : Nat) : t.inputAt k = s.inputAt (k + 1) := by
  obtain ⟨hi, ht⟩ := step_inputs_tick h
  rw [← State.advance_inputAt]
  exact State.inputAt_congr hi ht k

theorem noReset_now {n : Nat} {s : State} (h : NoReset (n + 1) s) : s.now.rst = false := h 0 (Nat.succ_pos n)

theorem noReset_step {n : Nat} {s t : State} (h : NoReset (n + 1) s) (hs : step s = .next t) : NoReset n t := by
  intro k hk
  rw [step_inputAt hs]
  exact h (k + 1) (by omega)

theorem noReset_mono {m n : Nat} {s : State} (h : NoReset n s) (hm : m ≤ n) : NoReset m s :=
  fun k hk => h k (by omega)

end Sys2Proof.Machine
end

