-- ==== Sys2Proof/Laws/Effects.lean ====
section
/-! SUPPORT. The one inversion lemma of the step: everything a tick without reset can do to the registers and to the
stream of pushed bytes. -/

namespace Sys2Proof.Machine

/-- The four registers an FSM operation writes beside the FIFO. -/
def regs (s : State) : Ctrl × Word × BitVec 6 × Byte := (s.state, s.cnt, s.bitcnt, s.shreg)

/-- A tick shifts `b` in and, inside the transaction, goes on in `c` with counter `n`: SAMPLE or ERR.FILL. -/
def ShiftsIn (s : State) (b : Bool) (c : Ctrl) (n : Word) : Prop :=
  (s.state = .settle ∧ s.cnt.toNat ≤ 1 ∧ b = s.now.lineI ∧ c = .bitWait ∧ n = s.cfg.waitBudget) ∨
  (s.state = .error ∧ b = false ∧ c = .error ∧ n = s.cnt)

/-- What a tick without reset can do, from `s` to `t`. -/
inductive TickEffect (s t : State) : Prop where
  /-- IDLE.WAIT -/
  | rest (hs : s.state = .idle) (ha : acc s = false) (hr : regs t = regs s) (hb : stream t = stream s)
  /-- START -/
  | start (hs : s.state = .idle) (ha : acc s = true) (hr : regs t = (.trigger, s.now.reqTicks, 0, 0))
      (hb : stream t = stream s)
  /-- TRIG.HOLD, SETTLE.HOLD and the four POLLs -/
  | down (hs : s.state = .trigger ∨ s.state = .settle ∨ (isWait s.state = true ∧ s.now.lineI ≠ tgt s.state))
      (hc : 1 < s.cnt.toNat) (hr : regs t = (s.state, s.cnt - 1, s.bitcnt, s.shreg)) (hb : stream t = stream s)
  /-- TRIG.RELEASE -/
  | release (hs : s.state = .trigger) (hc : s.cnt.toNat ≤ 1)
      (hr : regs t = (.awaitRise1, s.cfg.waitBudget, s.bitcnt, s.shreg)) (hb : stream t = stream s)
  /-- The four HITs -/
  | hit (hs : isWait s.state = true) (hl : s.now.lineI = tgt s.state)
      (hr : regs t = (hitNext s.state, hitLoad s.cfg s.state, s.bitcnt, s.shreg)) (hb : stream t = stream s)
  /-- The four TIMEOUTs -/
  | timeout (hs : isWait s.state = true) (hl : s.now.lineI ≠ tgt s.state) (hc : s.cnt.toNat ≤ 1)
      (hr : regs t = (.error, 0, s.bitcnt, s.shreg)) (hb : stream t = stream s)
  /-- SAMPLE or ERR.FILL inside a byte -/
  | inside (b : Bool) (c : Ctrl) (n : Word) (hs : ShiftsIn s b c n) (hp : s.bitcnt.toNat % 8 ≠ 7)
      (hr : regs t = (c, n, s.bitcnt + 1, shifted s.shreg b)) (hb : stream t = stream s)
  /-- SAMPLE or ERR.FILL at the end of a byte -/
  | push (b : Bool) (c : Ctrl) (n : Word) (hs : ShiftsIn s b c n) (hp : s.bitcnt.toNat % 8 = 7) (h39 : s.bitcnt ≠ 39)
      (hr : regs t = (c, n, s.bitcnt + 1, 0)) (hb : stream t = stream s ++ [shifted s.shreg b])
  /-- SAMPLE or ERR.FILL of bit 39 -/
  | last (b : Bool) (c : Ctrl) (n : Word) (hs : ShiftsIn s b c n) (h39 : s.bitcnt = 39)
      (hr : regs t = (.idle, 0, 0, 0)) (hb : stream t = stream s ++ [shifted s.shreg b])

theorem stream_portDone (s : State) : stream (portDone s) = stream s := portDone_stream s

theorem effect_of_shiftIn {s p t : State} {b : Bool} {c : Ctrl} {n : Word} (hs : ShiftsIn s b c n)
    (hp : regs p = (c, n, s.bitcnt, s.shreg)) (hb : stream p = stream s)
    (h : (andThen (shiftIn b p) fun u => .next u.advance) = .next t) : TickEffect s t := by
  obtain ⟨u, hu, ht⟩ := andThen_eq_next h
  cases ht
  simp only [regs, Prod.mk.injEq] at hp
  obtain ⟨h1, h2, h3, h4⟩ := hp
  rcases shiftIn_cases hu with ⟨h7, rfl⟩ | ⟨h7, h39, -, rfl⟩ | ⟨h39, -, rfl⟩
  · exact .inside b c n hs (h3 ▸ h7) (by simp [regs, h1, h2, h3, h4]) hb
  · exact .push b c n hs (h3 ▸ h7) (h3 ▸ h39) (by simp [regs, h1, h2, h3])
      (by rw [← hb, ← h4]; simp [stream])
  · exact .last b c n hs (h3 ▸ h39) (by simp [regs]) (by rw [← hb, ← h4]; simp [stream])

/-- The inversion lemma. -/
theorem step_effect {s t : State} (hr : s.now.rst = false) (h : step s = .next t) : TickEffect s t := by
  have hst : stream (portDone s) = stream s := stream_portDone s
  by_cases hw : isWait s.state = true
  · by_cases hl : s.now.lineI = tgt s.state
    · rw [step_hit hr hw hl] at h; cases h
      exact .hit hw hl (by simp [regs]) hst
    · by_cases hc : 1 < s.cnt.toNat
      · rw [step_poll hr hw hl hc] at h; cases h
        exact .down (.inr (.inr ⟨hw, hl⟩)) hc (by simp [regs]) hst
      · rw [step_timeout hr hw hl (by omega)] at h; cases h
        exact .timeout hw hl (by omega) (by simp [regs]) hst
  · cases hs : s.state
    case idle =>
      by_cases ha : acc s = true
      · rw [step_start hr hs ha] at h; cases h
        exact .start hs ha (by simp [regs]) rfl
      · rw [step_idle hr hs (by simpa using ha)] at h; cases h
        exact .rest hs (by simpa using ha) (by simp [regs]) hst
    case trigger =>
      by_cases hc : 1 < s.cnt.toNat
      · rw [step_trigHold hr hs hc] at h; cases h
        exact .down (.inl hs) hc (by simp [regs]) hst
      · rw [step_trigRelease hr hs (by omega)] at h; cases h
        exact .release hs (by omega) (by simp [regs]) hst
    case settle =>
      by_cases hc : 1 < s.cnt.toNat
      · rw [step_settleHold hr hs hc] at h; cases h
        exact .down (.inr (.inl hs)) hc (by simp [regs]) hst
      · rw [step_sample hr hs (by omega)] at h
        exact effect_of_shiftIn (p := ((portDone s).goto .bitWait).setCnt s.cfg.waitBudget)
          (.inl ⟨hs, by omega, rfl, rfl, rfl⟩) (by simp [regs]) hst h
    case error =>
      rw [step_error hr hs] at h
      exact effect_of_shiftIn (.inr ⟨hs, rfl, rfl, rfl⟩) (by simp [regs, hs]) hst h
    all_goals simp [hs, isWait] at hw

/-- No tick changes the configuration. -/
theorem step_cfg {s t : State} (h : step s = .next t) : t.cfg = s.cfg := by
  by_cases hr : s.now.rst = true
  · rw [step_of_rst hr] at h; cases h; rfl
  · obtain ⟨u, hu, rfl⟩ := step_eq_next h (by simpa using hr)
    show u.cfg = s.cfg
    generalize opOf s.state (acc s) (hit s) (tc s) = i at hu
    cases i
    case sample => rcases shiftIn_cases hu with ⟨_, rfl⟩ | ⟨_, _, _, rfl⟩ | ⟨_, _, rfl⟩ <;> simp
    case errFill => rcases shiftIn_cases hu with ⟨_, rfl⟩ | ⟨_, _, _, rfl⟩ | ⟨_, _, rfl⟩ <;> simp
    all_goals
      cases hu
      simp

end Sys2Proof.Machine
end

