-- ==== Sys2Proof/Laws/PerInstr.lean ====
section
/-! SUPPORT. One lemma per operation about its row of the table: the row is well formed, and every word the row selects is
decoded to the operation and to no other. -/

namespace Sys2Proof.Laws.RowWords

/-- The row of `i` is well formed, and a word of its format and width that it selects decodes to `i`. -/
def Statement (i : Instr) : Prop :=
  i.row.wf = true ∧
    ∀ b : Fin (2 ^ i.row.format.width), i.row.selects ⟨i.row.format, b⟩ = true →
      (decode ⟨i.row.format, b⟩).toOption = some i

theorem idleWait : Statement .idleWait := by unfold Statement; decide

theorem start : Statement .start := by unfold Statement; decide

theorem trigHold : Statement .trigHold := by unfold Statement; decide

theorem trigRelease : Statement .trigRelease := by unfold Statement; decide

theorem rise1Hit : Statement .rise1Hit := by unfold Statement; decide

theorem rise1Poll : Statement .rise1Poll := by unfold Statement; decide

theorem rise1Timeout : Statement .rise1Timeout := by unfold Statement; decide

theorem fallHit : Statement .fallHit := by unfold Statement; decide

theorem fallPoll : Statement .fallPoll := by unfold Statement; decide

theorem fallTimeout : Statement .fallTimeout := by unfold Statement; decide

theorem rise2Hit : Statement .rise2Hit := by unfold Statement; decide

theorem rise2Poll : Statement .rise2Poll := by unfold Statement; decide

theorem rise2Timeout : Statement .rise2Timeout := by unfold Statement; decide

theorem bitHit : Statement .bitHit := by unfold Statement; decide

theorem bitPoll : Statement .bitPoll := by unfold Statement; decide

theorem bitTimeout : Statement .bitTimeout := by unfold Statement; decide

theorem settleHold : Statement .settleHold := by unfold Statement; decide

theorem sample : Statement .sample := by unfold Statement; decide

theorem errFill : Statement .errFill := by unfold Statement; decide

theorem pop : Statement .pop := by unfold Statement; decide

end Sys2Proof.Laws.RowWords
end

