-- ==== Sys2Proof/Laws/Stimulus.lean ====
section
/-! SUPPORT. What each function of Machine/Stimulus.lean gives, said once: how long an item lasts, which level a run gives
and when, which request is the `j`-th, and that the bench takes a request exactly when the block executes START. -/

namespace Sys2Proof.Machine

/-! ## LINE -/

theorem byteRuns_ticks (S : Nat) (v : Byte) : ((byteRuns S v).map Prod.snd).sum = 8 * (1 + S) := by
  simp only [byteRuns, cellRuns, List.flatMap_cons, List.flatMap_nil, List.cons_append, List.nil_append, List.map_cons,
    List.map_nil, List.sum_cons, List.sum_nil]
  omega

theorem itemRuns_ticks (S : Nat) (m : LineItem) : ((itemRuns S m).map Prod.snd).sum = itemTicks S m := by
  cases m
  case byte v => exact byteRuns_ticks S v
  case frame =>
    simp only [itemRuns, List.flatMap_cons, List.flatMap_nil, List.map_append, List.sum_append, byteRuns_ticks, itemTicks,
      List.map_nil, List.sum_nil]
    omega
  all_goals simp [itemRuns, itemTicks, cellRuns]

theorem itemsRuns_ticks (S : Nat) (items : List LineItem) :
    ((items.flatMap (itemRuns S)).map Prod.snd).sum = (items.map (itemTicks S)).sum := by
  induction items with
  | nil => rfl
  | cons m items ih =>
    simp only [List.flatMap_cons, List.map_append, List.sum_append, List.map_cons, List.sum_cons, itemRuns_ticks, ih]

/-- The runs of an item are those of its expansion (30_encoding.md R71). -/
theorem itemRuns_expansion (S : Nat) (m : LineItem) : itemRuns S m = (macroExpansion S m).flatMap (itemRuns S) := by
  cases m <;> simp [itemRuns, macroExpansion, cellRuns, byteRuns, List.flatMap]

/-- Runs that are over by tick `t` only shift the time. -/
theorem runsLevel_append (rs : List Run) (r : Run) (q : List Run) (t : Nat) (h : (rs.map Prod.snd).sum ≤ t) :
    runsLevel (rs ++ r :: q) t = runsLevel (r :: q) (t - (rs.map Prod.snd).sum) := by
  induction rs generalizing t with
  | nil => rfl
  | cons a rs ih =>
    obtain ⟨l, k⟩ := a
    simp only [List.map_cons, List.sum_cons] at h ⊢
    obtain ⟨r', q', e⟩ : ∃ r' q', rs ++ r :: q = r' :: q' := by cases rs <;> simp
    rw [List.cons_append, e, runsLevel, if_neg (by omega), ← e, ih _ (by omega)]
    congr 1
    omega

/-- A run among the items of a LINE line gives the level of its ticks, and for ever if it is the last. -/
theorem runsLevel_run (S : Nat) (pre : List LineItem) (l : Level) (k : Nat) (post : List LineItem) (t : Nat)
    (h1 : (pre.map (itemTicks S)).sum ≤ t) (h2 : t < (pre.map (itemTicks S)).sum + k ∨ post = []) :
    runsLevel ((pre ++ .run l k :: post).flatMap (itemRuns S)) t = some l := by
  rw [List.flatMap_append, List.flatMap_cons]
  show runsLevel (_ ++ (l, k) :: _) t = _
  rw [runsLevel_append _ _ _ _ (by rw [itemsRuns_ticks]; exact h1), itemsRuns_ticks]
  show runsLevel ((l, k) :: post.flatMap (itemRuns S)) _ = _
  cases hq : post.flatMap (itemRuns S) with
  | nil => rfl
  | cons r q =>
    rcases h2 with h | rfl
    · rw [runsLevel, if_pos (by omega)]
    · simp at hq

theorem scriptRuns_of_no_line {S : Nat} {sc : Script} (h : (sc.filter ScriptLine.isLine).length = 0) :
    scriptRuns S sc = [] := by
  induction sc with
  | nil => rfl
  | cons a sc ih =>
    cases a
    case line => simp [ScriptLine.isLine] at h
    all_goals
      rw [List.filter_cons_of_neg (by simp [ScriptLine.isLine])] at h
      have := ih h
      simp only [scriptRuns, List.flatMap_cons] at this ⊢
      rw [this]
      rfl

/-- The runs of a well-formed script are those of its LINE line. -/
theorem scriptRuns_of_line {sc : Script} (h : Script.wf sc = true) {items : List LineItem} (hm : .line items ∈ sc)
    (S : Nat) : scriptRuns S sc = items.flatMap (itemRuns S) := by
  have h1 : (sc.filter ScriptLine.isLine).length ≤ 1 := by
    simp only [Script.wf, Bool.and_eq_true, decide_eq_true_eq] at h
    exact h.2
  clear h
  induction sc with
  | nil => cases hm
  | cons a sc ih =>
    rcases List.mem_cons.mp hm with rfl | hm
    · rw [List.filter_cons_of_pos rfl, List.length_cons] at h1
      have := scriptRuns_of_no_line (S := S) (sc := sc) (by omega)
      simp only [scriptRuns, List.flatMap_cons] at this ⊢
      rw [this, List.append_nil]
    · have ha : a.isLine = false := by
        by_contra hl
        rw [List.filter_cons_of_pos (by simpa using hl), List.length_cons] at h1
        have := List.length_pos_of_mem (List.mem_filter.mpr ⟨hm, rfl⟩ : ScriptLine.line items ∈ sc.filter ScriptLine.isLine)
        omega
      have := ih hm (by simpa [ha] using h1)
      cases a <;> simp only [ScriptLine.isLine, Bool.true_eq_false] at ha <;> simpa [scriptRuns] using this

/-! ## PARAM -/

/-- A PARAM line of a well-formed script is its first line. -/
theorem param_is_first {sc : Script} (h : Script.wf sc = true) {b S : Option Word} (hm : .param b S ∈ sc) :
    ∃ rest, sc = .param b S :: rest := by
  cases sc with
  | nil => cases hm
  | cons a rest =>
    rcases List.mem_cons.mp hm with rfl | hm
    · exact ⟨rest, rfl⟩
    · simp [Script.wf] at h
      have := h.1.2 _ hm
      simp [ScriptLine.isParam] at this

/-- A well-formed script has a legal configuration. -/
theorem scriptConfig_wf {sc : Script} (h : Script.wf sc = true) : (scriptConfig sc).wf = true := by
  cases sc with
  | nil => decide
  | cons a rest =>
    have ha : a.wf = true := by simp [Script.wf] at h; exact h.1.1.1
    cases a
    case param b S =>
      simp [ScriptLine.wf] at ha
      cases b <;> cases S <;> simp_all [scriptConfig, Config.wf, Config.default]
    all_goals exact (by decide : Config.default.wf = true)

/-! ## REQ -/

theorem scriptReqs_cons_of_not_req {a : ScriptLine} (h : a.isReq = false) (sc : Script) :
    scriptReqs (a :: sc) = scriptReqs sc := by
  cases a <;> first | rfl | cases h

/-- The `j`-th request of a script is its REQ line with `j` REQ lines before it. -/
theorem scriptReqs_getElem? (sc : Script) (j : Nat) (n : Word) (u : Nat) :
    (scriptReqs sc)[j]? = some (n, u) ↔
      ∃ pre post, sc = pre ++ .req n u :: post ∧ (pre.filter ScriptLine.isReq).length = j := by
  constructor
  · intro h
    induction sc generalizing j with
    | nil => simp [scriptReqs] at h
    | cons a sc ih =>
      cases ha : a.isReq with
      | false =>
        rw [scriptReqs_cons_of_not_req ha] at h
        obtain ⟨pre, post, rfl, hp⟩ := ih j h
        exact ⟨a :: pre, post, rfl, by rw [List.filter_cons_of_neg (by simp [ha]), hp]⟩
      | true =>
        cases a <;> simp [ScriptLine.isReq] at ha
        rename_i n' u'
        have e : scriptReqs (.req n' u' :: sc) = (n', u') :: scriptReqs sc := rfl
        rw [e] at h
        cases j with
        | zero =>
          simp only [List.getElem?_cons_zero, Option.some.injEq, Prod.mk.injEq] at h
          exact ⟨[], sc, by rw [h.1, h.2]; rfl, rfl⟩
        | succ j =>
          obtain ⟨pre, post, rfl, hp⟩ := ih j h
          exact ⟨.req n' u' :: pre, post, rfl, by rw [List.filter_cons_of_pos rfl, List.length_cons, hp]⟩
  · rintro ⟨pre, post, rfl, rfl⟩
    induction pre with
    | nil => rfl
    | cons a pre ih =>
      cases ha : a.isReq with
      | false => rw [List.cons_append, scriptReqs_cons_of_not_req ha, List.filter_cons_of_neg (by simp [ha]), ih]
      | true =>
        cases a <;> simp [ScriptLine.isReq] at ha
        rw [List.filter_cons_of_pos rfl, List.length_cons]
        exact ih

/-- The bench takes its request exactly on a tick that executes START. -/
theorem Bench.takes_iff (b : Bench) :
    b.takes = true ↔
      (b.block.withNow b.ports).now.rst = false ∧ fsmOp (b.block.withNow b.ports) = some .start := by
  have hs : (b.block.withNow b.ports).state = b.block.state := rfl
  have hf : (b.block.withNow b.ports).fifo = b.block.fifo := rfl
  have hn : (b.block.withNow b.ports).now = b.ports := rfl
  have ha := acc_iff (b.block.withNow b.ports)
  rw [hn, hf] at ha
  rw [hn, fsmOp_eq, hs]
  simp only [Bench.takes, reqReady, State.fifoCnt]
  cases b.block.state <;> cases hit (b.block.withNow b.ports) <;> cases tc (b.block.withNow b.ports) <;>
    cases hc : acc (b.block.withNow b.ports) <;> simp [opOf] <;> simp [hc] at ha <;> simp_all

end Sys2Proof.Machine
end

