-- ==== Sys2Proof/Tests/Slice0.lean ====
section
/-! SUPPORT. The model's own tests. Expected results are those of spec/: the vectors S1 to S43 of 95_test_vectors.md 2.1
(one step each), the decode table of 2.2, the frames of 2.9, and the ill-formed terms. Then, for every statement with
hypotheses, a named state that meets them. -/

open Sys2Proof Sys2Proof.Machine

namespace Sys2Proof.Tests

/-! ## Helpers -/

/-- Inputs with only the line level given. -/
def lineIn (l : Level) : Inputs := { rst := false, lineI := l, reqValid := false, reqTicks := 0, outReady := false }

/-- A small state with the default configuration and one tick of inputs. -/
def st (c : Ctrl) (cnt : Word) (bitcnt : BitVec 6) (shreg : Byte) (fifo : List Byte) (i : Inputs) : State :=
  { State.reset with state := c, cnt := cnt, bitcnt := bitcnt, shreg := shreg, fifo := fifo, inputs := [i] }

/-- A state with budget `b`, settle delay `n` and a line waveform. -/
def wave (b n : Word) (c : Ctrl) (cnt : Word) (bitcnt : BitVec 6) (ls : List Level) : State :=
  { State.reset with
    state := c, cnt := cnt, bitcnt := bitcnt, cfg := ⟨b, n, 2000⟩, inputs := ls.map lineIn }

/-- What a test looks at: control state, counters, accumulator, FIFO. -/
def seen (o : Answer) : Option (Ctrl × Word × BitVec 6 × Byte × List Byte) :=
  match o with
  | .next t => some (t.state, t.cnt, t.bitcnt, t.shreg, t.fifo)
  | .fault _ => none
  | .refused _ => none

/-- The state of a next answer. -/
def nextOf (o : Answer) : State :=
  match o with
  | .next t => t
  | .fault _ => State.reset
  | .refused _ => State.reset

/-- The invariant as a check. -/
def invCheck (s : State) : Bool :=
  s.cfg.wf &&
  (s.state != .idle || (s.bitcnt == 0 && s.shreg == 0 && s.cnt == 0)) &&
  (!isWait s.state || (decide (1 ≤ s.cnt.toNat) && decide (s.cnt.toNat ≤ s.cfg.waitBudget.toNat))) &&
  (s.state != .settle || (decide (1 ≤ s.cnt.toNat) && decide (s.cnt.toNat ≤ s.cfg.settleTicks.toNat))) &&
  (s.state != .error || s.cnt == 0) && decide (s.bitcnt.toNat ≤ 39) &&
  (s.state == .idle || decide (s.fifoCnt ≤ s.bitcnt.toNat / 8)) &&
  (s.state != .idle || decide (s.fifoCnt ≤ 5)) &&
  decide (s.shreg.toNat < 2 ^ (s.bitcnt.toNat % 8)) &&
  (!(s.state == .trigger || s.state == .awaitRise1 || s.state == .awaitFall || s.state == .awaitRise2) ||
    (s.bitcnt == 0 && s.shreg == 0))

theorem inv_of_check {s : State} (h : invCheck s = true) : Inv s := by
  simp only [invCheck, Bool.and_eq_true, Bool.or_eq_true, bne_iff_ne, beq_iff_eq, decide_eq_true_eq,
    Bool.not_eq_true', Bool.or_eq_false_iff, beq_eq_false_iff_ne] at h
  obtain ⟨⟨⟨⟨⟨⟨⟨⟨⟨h0, h1⟩, h2⟩, h3⟩, h4⟩, h5⟩, h6⟩, h7⟩, h8⟩, h9⟩ := h
  refine ⟨h0, fun e => ?_, ⟨fun e => ?_, fun e => ?_, fun e => ?_, h5⟩, ⟨fun e => ?_, fun e => ?_⟩, h8, fun e => ?_⟩
  · rcases h1 with h1 | ⟨⟨a, b⟩, c⟩
    · exact absurd e h1
    · exact ⟨a, b, c⟩
  · rcases h2 with h2 | h2
    · rw [e] at h2; cases h2
    · exact h2
  · exact h3.resolve_left fun n => n e
  · exact h4.resolve_left fun n => n e
  · exact h6.resolve_left e
  · exact h7.resolve_left fun n => n e
  · rcases h9 with h9 | h9
    · rcases e with e | e | e | e
      · exact absurd e h9.1.1.1
      · exact absurd e h9.1.1.2
      · exact absurd e h9.1.2
      · exact absurd e h9.2
    · exact h9

/-! ## Ill-formed terms -/

theorem test_wf_dispatch_word_too_wide : (OpWord.mk .dispatch 64).wf = false := by decide

theorem test_wf_port_word_too_wide : (OpWord.mk .port 4).wf = false := by decide

theorem test_decode_rejects_wide_word : decode ⟨.dispatch, 64⟩ = .error (.tooWide ⟨.dispatch, 64⟩) := by
  unfold decode; rw [if_neg (by decide)]

theorem test_wf_row_value_outside_mask : (Row.mk .dispatch 0x01 0x3C).wf = false := by decide

theorem test_wf_row_mask_too_wide : (Row.mk .port 0x4 0x4).wf = false := by decide

theorem test_wf_config_zero_budget : (Config.mk 0 25 2000).wf = false := by decide

theorem test_wf_config_zero_settle : (Config.mk 31 0 2000).wf = false := by decide

theorem test_settle_constraint_excludes_14 : (Config.mk 31 14 2000).settleBetweenPulses = false := by decide

theorem test_settle_constraint_admits_15_to_34 :
    (Config.mk 31 15 2000).settleBetweenPulses = true ∧ (Config.mk 31 34 2000).settleBetweenPulses = true ∧
    (Config.mk 31 35 2000).settleBetweenPulses = false := by decide

theorem test_wf_script_param_zero :
    Script.wf [.param (some 0) (some 25)] = false ∧ Script.wf [.param none (some 0)] = false := by decide

theorem test_wf_script_empty_line : Script.wf [.line []] = false := by decide

theorem test_wf_script_param_not_first : Script.wf [.req 3 0, .param (some 31) (some 25)] = false := by decide

theorem test_wf_script_param_twice : Script.wf [.param (some 31) (some 25), .param (some 31) (some 25)] = false := by decide

theorem test_wf_script_line_twice : Script.wf [.line [.run true 1], .line [.run true 1]] = false := by decide

theorem test_wf_script_good : Script.wf [.param (some 31) (some 25), .req 3 0, .line [.run true 1], .popFrom 9] = true := by decide

/-! ## Decoding: words written out from the patterns of 30_encoding.md R66 -/

theorem test_decode_idle_family :
    decodeDispatch 0b000000#6 = some .idleWait ∧ decodeDispatch 0b000011#6 = some .idleWait ∧
    decodeDispatch 0b000100#6 = some .start ∧ decodeDispatch 0b000111#6 = some .start := by decide

theorem test_decode_trigger_family :
    decodeDispatch 0b001000#6 = some .trigHold ∧ decodeDispatch 0b001110#6 = some .trigHold ∧
    decodeDispatch 0b001001#6 = some .trigRelease ∧ decodeDispatch 0b001111#6 = some .trigRelease := by decide

theorem test_decode_rise1_family :
    decodeDispatch 0b010010#6 = some .rise1Hit ∧ decodeDispatch 0b010011#6 = some .rise1Hit ∧
    decodeDispatch 0b010000#6 = some .rise1Poll ∧ decodeDispatch 0b010101#6 = some .rise1Timeout := by decide

theorem test_decode_fall_family :
    decodeDispatch 0b011010#6 = some .fallHit ∧ decodeDispatch 0b011111#6 = some .fallHit ∧
    decodeDispatch 0b011100#6 = some .fallPoll ∧ decodeDispatch 0b011001#6 = some .fallTimeout := by decide

theorem test_decode_rise2_family :
    decodeDispatch 0b100010#6 = some .rise2Hit ∧ decodeDispatch 0b100111#6 = some .rise2Hit ∧
    decodeDispatch 0b100100#6 = some .rise2Poll ∧ decodeDispatch 0b100001#6 = some .rise2Timeout := by decide

theorem test_decode_bit_family :
    decodeDispatch 0b101010#6 = some .bitHit ∧ decodeDispatch 0b101011#6 = some .bitHit ∧
    decodeDispatch 0b101000#6 = some .bitPoll ∧ decodeDispatch 0b101101#6 = some .bitTimeout := by decide

theorem test_decode_settle_family :
    decodeDispatch 0b110000#6 = some .settleHold ∧ decodeDispatch 0b110110#6 = some .settleHold ∧
    decodeDispatch 0b110001#6 = some .sample ∧ decodeDispatch 0b110111#6 = some .sample := by decide

theorem test_decode_error_family :
    decodeDispatch 0b111000#6 = some .errFill ∧ decodeDispatch 0b111101#6 = some .errFill := by decide

theorem test_decode_port_words :
    decodePort 0b11#2 = some .pop ∧ decodePort 0b00#2 = none ∧ decodePort 0b01#2 = none ∧ decodePort 0b10#2 = none := by
  decide

theorem test_table_words_decode : ∀ i ∈ Instr.all, decodeTableWord 8 i.row.value = some i := by decide

theorem test_table_words_are_run_after_reset :
    ∀ i ∈ Instr.all, i ≠ .pop → fsmOp (State.reset.withFetchWord 8 i.row.value) = some i := by decide

theorem test_pop_word_is_run_after_reset :
    portOp (State.reset.withFetchWord 8 3) = some .pop ∧ fsmOp (State.reset.withFetchWord 8 3) = some .idleWait := by
  decide

/-! ## Single steps (95_test_vectors.md 2.1) -/

theorem test_S1_idle_wait : seen (step (st .idle 0 0 0 [] (lineIn true))) = some (.idle, 0, 0, 0, []) := by decide

theorem test_S4_request_with_full_fifo_not_accepted :
    seen (step (st .idle 0 0 0 [0x59] { lineIn true with reqValid := true, reqTicks := 10000 })) =
      some (.idle, 0, 0, 0, [0x59]) := by decide

theorem test_S2_start :
    seen (step (st .idle 0 0 0 [] { lineIn false with reqValid := true, reqTicks := 10000 })) =
      some (.trigger, 10000, 0, 0, []) := by decide

theorem test_S6_start_largest :
    seen (step (st .idle 0 0 0 [] { lineIn true with reqValid := true, reqTicks := 0xFFFFFFFF })) =
      some (.trigger, 4294967295, 0, 0, []) := by decide

theorem test_S8_trig_hold : seen (step (st .trigger 2 0 0 [] (lineIn false))) = some (.trigger, 1, 0, 0, []) := by decide

theorem test_S11_trig_hold_ignores_request :
    seen (step (st .trigger 5 0 0 [] { lineIn true with reqValid := true, reqTicks := 7 })) =
      some (.trigger, 4, 0, 0, []) := by decide

theorem test_S9_trig_release :
    seen (step (st .trigger 1 0 0 [] (lineIn false))) = some (.awaitRise1, 31, 0, 0, []) := by decide

theorem test_S10_trig_release_of_zero :
    seen (step (st .trigger 0 0 0 [] (lineIn true))) = some (.awaitRise1, 31, 0, 0, []) := by decide

theorem test_S14_rise1_hit_beats_timeout :
    seen (step (st .awaitRise1 1 0 0 [] (lineIn true))) = some (.awaitFall, 31, 0, 0, []) := by decide

theorem test_S13_rise1_poll :
    seen (step (st .awaitRise1 31 0 0 [] (lineIn false))) = some (.awaitRise1, 30, 0, 0, []) := by decide

theorem test_S15_rise1_timeout :
    seen (step (st .awaitRise1 1 0 0 [] (lineIn false))) = some (.error, 0, 0, 0, []) := by decide

theorem test_S16_fall_hit :
    seen (step (st .awaitFall 17 0 0 [] (lineIn false))) = some (.awaitRise2, 31, 0, 0, []) := by decide

theorem test_S17_fall_poll :
    seen (step (st .awaitFall 17 0 0 [] (lineIn true))) = some (.awaitFall, 16, 0, 0, []) := by decide

theorem test_S18_fall_timeout :
    seen (step (st .awaitFall 1 0 0 [] (lineIn true))) = some (.error, 0, 0, 0, []) := by decide

theorem test_S21_rise2_hit :
    seen (step (st .awaitRise2 1 0 0 [] (lineIn true))) = some (.bitWait, 31, 0, 0, []) := by decide

theorem test_S19_rise2_poll :
    seen (step (st .awaitRise2 2 0 0 [] (lineIn false))) = some (.awaitRise2, 1, 0, 0, []) := by decide

theorem test_S20_rise2_timeout :
    seen (step (st .awaitRise2 1 0 0 [] (lineIn false))) = some (.error, 0, 0, 0, []) := by decide

theorem test_S22_bit_hit :
    seen (step (st .bitWait 31 0 0 [] (lineIn false))) = some (.settle, 25, 0, 0, []) := by decide

theorem test_S43_bit_hit_and_pop :
    seen (step (st .bitWait 31 8 0 [0x01] { lineIn false with outReady := true })) =
      some (.settle, 25, 8, 0, []) := by decide

theorem test_S23_bit_poll :
    seen (step (st .bitWait 9 17 1 [0x01, 0x90] (lineIn true))) = some (.bitWait, 8, 17, 1, [0x01, 0x90]) := by decide

theorem test_S24_bit_timeout :
    seen (step (st .bitWait 1 39 0x2C [0x01, 0x90, 0x00, 0xC8] (lineIn true))) =
      some (.error, 0, 39, 0x2C, [0x01, 0x90, 0x00, 0xC8]) := by decide

theorem test_S27_settle_hold :
    seen (step (st .settle 2 3 5 [] (lineIn false))) = some (.settle, 1, 3, 5, []) := by decide

theorem test_S28_sample_one :
    seen (step (st .settle 1 3 5 [] (lineIn true))) = some (.bitWait, 31, 4, 0x0B, []) := by decide

theorem test_S33_sample_last_and_pop :
    seen (step (st .settle 1 39 0x2C [0xC8] { lineIn true with outReady := true })) =
      some (.idle, 0, 0, 0, [0x59]) := by decide

theorem test_S37_err_fill_push :
    seen (step (st .error 0 15 0x40 [0x01] (lineIn true))) = some (.error, 0, 16, 0, [0x01, 0x80]) := by decide

theorem test_S38_err_fill_last :
    seen (step (st .error 0 39 0 [0x01, 0x80, 0x00, 0x00] (lineIn true))) =
      some (.idle, 0, 0, 0, [0x01, 0x80, 0x00, 0x00, 0x00]) := by decide

theorem test_S40_pop_result :
    (nextOf (step (st .idle 0 0 0 [0x01, 0x90, 0x00, 0xC8, 0x59] { lineIn true with outReady := true }))).popped =
      [(0, 0x01)] := by decide

theorem test_S41_pop_empty :
    seen (step (st .idle 0 0 0 [] { lineIn true with outReady := true })) = some (.idle, 0, 0, 0, []) := by decide

theorem test_S42_reset_wins :
    seen (step (st .settle 12 22 0x15 [0x01, 0x90]
      { rst := true, lineI := true, reqValid := true, reqTicks := 5, outReady := true })) =
      some (.idle, 0, 0, 0, []) := by decide

/-! ## Words and ports -/

theorem test_dispatch_word_S2 :
    dispatchWord (st .idle 0 0 0 [] { lineIn false with reqValid := true, reqTicks := 10000 }) = 0x05#6 := by decide

theorem test_dispatch_word_S34 :
    dispatchWord (st .settle 1 39 0x7F [] { lineIn true with reqValid := true, reqTicks := 9 }) = 0x37#6 := by decide

theorem test_outputs_S4 :
    let s := st .idle 0 0 0 [0x59] (lineIn true)
    lineOe s = false ∧ reqReady s = false ∧ outValid s = true ∧ outByte s = 0x59 ∧ busy s = false := by decide

theorem test_wire_is_low_while_the_block_drives :
    wiredLine (st .trigger 5 0 0 [] (lineIn true)) false = false ∧
    wiredLine (st .awaitRise1 5 0 0 [] (lineIn true)) false = true ∧
    wiredLine (st .awaitFall 5 0 0 [] (lineIn true)) true = false := by decide

/-! ## The host's side (95_test_vectors.md 2.9, R71, P1) -/

theorem test_V60_source_example :
    Frame.readResult ⟨0x01, 0x90, 0x00, 0xC8, 0x59⟩ = (some ⟨20, 0⟩, some ⟨40, 0⟩) := by decide

theorem test_V63_checksum_mismatch : Frame.readResult ⟨0xFF, 0xFF, 0xFF, 0xFF, 0xFF⟩ = (none, none) := by decide

theorem test_V65_no_sign : Frame.readResult ⟨0x02, 0x8C, 0x80, 0x65, 0x73⟩ = (some ⟨3286, 9⟩, some ⟨65, 2⟩) := by decide

theorem test_nominal_trigger_ticks : nominalTriggerTicks 2000 = 10000 := by decide

/-- 95_test_vectors.md: `PARAM B=1` after V15 and `PARAM S=15` after V24, the other field at its default. -/
theorem test_param_with_one_field :
    Script.wf [.param (some 1) none] = true ∧
    (scriptConfig [.param (some 1) none]).waitBudget = 1 ∧ (scriptConfig [.param (some 1) none]).settleTicks = 25 ∧
    (scriptConfig [.param none (some 15)]).waitBudget = 31 ∧ (scriptConfig [.param none (some 15)]).settleTicks = 15 := by
  decide

/-- The model's choice on runs of zero ticks (log 8). -/
theorem test_zero_run :
    runsLevel [(true, 0), (false, 2), (true, 0)] 0 = some false ∧
    runsLevel [(true, 0), (false, 2), (true, 0)] 2 = some true := by decide

/-- The model's choice at an exact half (log 15): 20 ms / 2560 ns = 7812.5. -/
theorem test_nominal_trigger_ticks_half : nominalTriggerTicks 2560 = 7813 := by decide

theorem test_cell_runs : itemRuns 25 (.cell true) = [(false, 1), (true, 25)] := by decide

theorem test_pulse_level :
    runsLevel (itemRuns 25 (.pulse 2)) 0 = some false ∧ runsLevel (itemRuns 25 (.pulse 2)) 2 = some true := by decide

theorem test_P5_request_not_before_its_tick :
    (Bench.start [.req 3 40, .line [.run true 1]]).ports.reqValid = false ∧
    (Bench.start [.req 3 0, .line [.run true 1]]).ports.reqValid = true := by decide

/-! ## Witnesses -/

/-- A request of `n` accepted at this tick, `B` = `S` = 1, and no reset in the next 120 ticks. -/
def startNow (n : Word) : State :=
  { State.reset with
    cfg := ⟨1, 1, 2000⟩,
    inputs := List.replicate 120 { lineIn true with reqValid := true, reqTicks := n } }

/-- BIT.HIT at this tick for bit number 3, `S` = 2, and the waveform after it. -/
def hitNow (b n : Word) (ls : List Level) : State := wave b n .bitWait 1 3 (false :: ls)

theorem witness_ResetLeavesTheStatedValues :
    (st .settle 12 22 0x15 [1] { lineIn true with rst := true }).now.rst = true := by decide

theorem witness_ResetMeetsInvariant : (wave 1 1 .settle 9 9 []).cfg.wf = true := by decide

theorem witness_EveryDispatchWordMatchesOneRow :
    Instr.idleWait.row.format = .dispatch ∧ (0b000011#6).toNat &&& Instr.idleWait.row.mask = Instr.idleWait.row.value := by
  decide

theorem witness_ConditionBitsAreAsStated : (st .idle 0 0 0 [] (lineIn true)).state = .idle := by decide

theorem witness_TickRunsTheDecodedOperation :
    (let s := st .idle 0 0 0 [1] { lineIn true with outReady := true };
      s.now.rst = false ∧ (outValid s && s.now.outReady) = true) ∧
    (let s := st .idle 0 0 0 [1] (lineIn true);
      s.now.rst = false ∧ (outValid s && s.now.outReady) = false) ∧
    (st .idle 0 0 0 [1] { lineIn true with rst := true }).now.rst = true := by decide

theorem witness_DecodeOfEncodeIsTheOperation : decodeDispatch 0b101110#6 = some .bitHit := by decide

theorem witness_PlacedOperationIsTheOneRun : Instr.sample ≠ .pop ∧ State.reset.state = .idle := by decide

theorem witness_IdleWaitRests :
    let s := st .idle 0 0 0 [0x59] { lineIn true with reqValid := true }
    s.state = .idle ∧ fsmOp s = some .idleWait ∧ s.now.rst = false ∧ s.now.outReady = false := by decide

theorem witness_StartBeginsTheTransaction :
    let s := st .idle 0 0 0 [] { lineIn true with reqValid := true }
    fsmOp s = some .start ∧ exec .start s = .next (nextOf (exec .start s)) := ⟨by decide, rfl⟩

theorem witness_TriggerHoldsAndReleases :
    let s := st .trigger 1 0 0 [] (lineIn true)
    s.state = .trigger ∧ exec .trigRelease s = .next (nextOf (exec .trigRelease s)) := ⟨by decide, rfl⟩

theorem witness_PollsCountDown : 1 < (st .awaitRise1 2 0 0 [] (lineIn false)).cnt.toNat := by decide

theorem witness_SettleHoldCountsDown :
    let s := wave 1 1 .settle 1 0 [true]
    s.cfg.settleTicks = 1 ∧ s.cnt.toNat ≤ s.cfg.settleTicks.toNat := by decide

theorem witness_SampleShiftsTheLineIn :
    (st .settle 1 3 5 [] (lineIn true)).bitcnt.toNat % 8 ≠ 7 ∧
    (let s := st .settle 1 31 5 [1, 2, 3] (lineIn true);
      s.bitcnt.toNat % 8 = 7 ∧ s.bitcnt ≠ 39 ∧ s.fifo.length < 5) ∧
    (let s := st .settle 1 39 5 [1, 2, 3, 4] (lineIn true); s.bitcnt = 39 ∧ s.fifo.length < 5) := by decide

theorem witness_ErrFillShiftsAZeroIn :
    (st .error 0 38 5 [] (lineIn true)).bitcnt.toNat % 8 ≠ 7 ∧
    (let s := st .error 0 7 5 [] (lineIn true); s.bitcnt.toNat % 8 = 7 ∧ s.bitcnt ≠ 39 ∧ s.fifo.length < 5) ∧
    (let s := st .error 0 39 5 [1, 2, 3, 4] (lineIn true); s.bitcnt = 39 ∧ s.fifo.length < 5) := by decide

theorem witness_OnlyAPushIntoAFullFifoFaults :
    exec .errFill (st .error 0 7 5 [1, 2, 3, 4, 5] (lineIn true)) = .fault .fifoOverflow := rfl

theorem witness_PopTakesTheHead :
    (st .idle 0 0 0 [] (lineIn true)).fifo = [] ∧ portOp (st .idle 0 0 0 [] (lineIn true)) ≠ some .pop ∧
    (let s := st .idle 0 0 0 [7] { lineIn true with outReady := true };
      s.fifo = [7] ∧ s.state = .idle) := by decide

theorem witness_PopTakesTheHead_next :
    let s := st .idle 0 0 0 [7] { lineIn true with outReady := true }
    exec .pop s = .next (nextOf (exec .pop s)) := rfl

theorem witness_PopAndFsmOperationBothTakeEffect :
    let s := st .settle 1 39 0x2C [0xC8] { lineIn true with outReady := true }
    let q := s.withNow { s.now with outReady := false }
    s.fifo = [0xC8] ∧ s.now.rst = false ∧ s.now.outReady = true ∧ step q = .next (nextOf (step q)) :=
  ⟨by decide, by decide, by decide, rfl⟩

theorem witness_OutputsAreMoore : (st .idle 0 0 0 [0x59] (lineIn true)).fifo = 0x59 :: [] := by decide

theorem witness_UnreadInputsChangeNothing :
    (let s := st .settle 2 3 5 [] (lineIn false); isWait s.state = false ∧ ¬ (s.state = .settle ∧ s.cnt.toNat ≤ 1)) ∧
    (st .error 0 3 5 [] (lineIn false)).state ≠ .idle ∧
    (st .error 0 3 5 [] (lineIn false)).fifo = [] ∧
    (st .error 0 3 5 [] { lineIn false with rst := true }).now.rst = true := by decide

theorem witness_UnreadInputsChangeNothing_request : ¬ Starts (st .trigger 5 0 0 [] (lineIn false)) := by
  rintro ⟨-, h, -⟩; cases h

theorem witness_RequestTransferIsStart :
    let s := st .idle 0 0 0 [] { lineIn true with reqValid := true, reqTicks := 3 }
    s.now.rst = false ∧ fsmOp s = some .start ∧ step s = .next (nextOf (step s)) ∧
    reqReady (st .idle 0 0 0 [1] (lineIn true)) = false := ⟨by decide, by decide, rfl, by decide⟩

theorem witness_UndrainedIdleAcceptsNothing :
    let s := { st .idle 0 0 0 [1] (lineIn true) with inputs := [lineIn true, lineIn false] }
    s.state = .idle ∧ s.fifo ≠ [] ∧
      ∀ k, k < 2 → (s.inputAt k).rst = false ∧ (s.inputAt k).outReady = false := by decide

theorem witness_HeldRequestIsTakenUnchanged :
    let i : Inputs := { lineIn true with reqValid := true, reqTicks := 3, outReady := true }
    let s := { st .idle 0 0 0 [7] i with inputs := [i, i] }
    s.now.reqValid = true ∧ HoldsRequest 1 s ∧ (∀ k, k < 1 → AfterHolds k s fun u => reqReady u = false) ∧
    AfterHolds 1 s fun u => reqReady u = true ∧ u.now.rst = false := by
  refine ⟨by decide, fun k hk _ _ _ _ => ?_, fun k hk => ?_, ⟨_, rfl, by decide⟩⟩
  · obtain rfl : k = 0 := by omega
    decide
  · obtain rfl : k = 0 := by omega
    exact ⟨_, rfl, by decide⟩

theorem witness_TimeoutEntersErrorPrecisely :
    let s := st .bitWait 1 11 4 [1] (lineIn true)
    isWait s.state = true ∧ s.now.rst = false ∧ s.now.lineI ≠ tgt s.state ∧ s.cnt.toNat ≤ 1 := by decide

theorem witness_WaitOrdinalsAreLabels :
    fsmOp (st .awaitRise1 1 0 0 [] (lineIn false)) = some .rise1Timeout ∧
    fsmOp (st .awaitFall 1 0 0 [] (lineIn true)) = some .fallTimeout ∧
    fsmOp (st .awaitRise2 1 0 0 [] (lineIn false)) = some .rise2Timeout ∧
    (let s := st .bitWait 1 39 0 [] (lineIn true);
      fsmOp s = some .bitTimeout ∧ s.bitcnt.toNat ≤ 39 ∧ waitOrdinal s = some 43) := by decide

theorem witness_PhasesAreEnteredOnlyAsStated :
    let s := st .error 0 39 0 [1, 2, 3, 4] (lineIn true)
    s.now.rst = false ∧ step s = .next (nextOf (step s)) ∧ (nextOf (step s)).state = .idle := ⟨by decide, rfl, by decide⟩

theorem witness_EveryTickKeepsTheInvariant : Inv (wave 2 2 .settle 1 38 [true]) := inv_of_check (by decide)

theorem witness_ReachableStatesMeetTheInvariants :
    let s := (startNow 0).resetRegs
    Reachable s ∧ step s = .next (nextOf (step s)) ∧ (nextOf (step s)).state = .trigger ∧ (nextOf (step s)).cnt = 0 :=
  ⟨.reset _ (by decide), rfl, by decide, by decide⟩

theorem witness_EveryTickKeepsTheOutsideWorld :
    step (startNow 3) = .next (nextOf (step (startNow 3))) := rfl

theorem witness_StreamOnlyGrowsByWholeBytes :
    let s := st .settle 1 7 0 [] (lineIn true)
    s.now.rst = false ∧ step s = .next (nextOf (step s)) := ⟨by decide, rfl⟩

theorem witness_CounterNeverWraps :
    let s := st .trigger 5 0 0 [] (lineIn true)
    s.now.rst = false ∧ step s = .next (nextOf (step s)) := ⟨by decide, rfl⟩

theorem noReset_startNow (n : Word) (k : Nat) (hk : k ≤ 120) : NoReset k (startNow n) := by
  intro j hj
  have h : j < 120 := by omega
  unfold State.inputAt startNow
  rw [List.getElem?_replicate, if_pos h]
  rfl

theorem starts_startNow (n : Word) : Starts (startNow n) := ⟨rfl, rfl, rfl, rfl⟩

theorem witness_LowPulseLastsTheRequestedTicks_zero : Starts (startNow 0) ∧ NoReset (holdTicks (startNow 0) + 1) (startNow 0) :=
  ⟨starts_startNow 0, noReset_startNow 0 _ (by decide)⟩

theorem witness_LowPulseLastsTheRequestedTicks : Starts (startNow 3) ∧ NoReset (holdTicks (startNow 3) + 1) (startNow 3) :=
  ⟨starts_startNow 3, noReset_startNow 3 _ (by decide)⟩

theorem witness_WaitEndsWithinTheBudget_hit :
    let s := wave 2 1 .bitWait 2 5 [true, false]
    isWait s.state = true ∧ s.cnt = s.cfg.waitBudget ∧ s.cfg.wf = true ∧ 1 < s.cfg.waitBudget.toNat ∧
    (∀ k, k < 2 → (s.inputAt k).rst = false) ∧ (∀ j, j < 1 → s.lineAt j ≠ tgt s.state) ∧ s.lineAt 1 = tgt s.state := by
  decide

theorem witness_WaitEndsWithinTheBudget_miss :
    let s := wave 2 1 .awaitRise1 2 0 [false, false]
    isWait s.state = true ∧ s.cnt = s.cfg.waitBudget ∧ s.cfg.wf = true ∧
    (∀ k, k < s.cfg.waitBudget.toNat → (s.inputAt k).rst = false) ∧
    (∀ j, j < s.cfg.waitBudget.toNat → s.lineAt j ≠ tgt s.state) := by decide

theorem witness_SampleFallsSettleTicksAfterTheHit :
    let s := hitNow 4 2 [true, true]
    Runs .bitHit s ∧ s.cfg.wf = true ∧ NoReset (s.cfg.settleTicks.toNat + 1) s ∧ Inv s ∧ s.bitcnt ≠ 39 :=
  ⟨⟨by decide, by decide⟩, by decide, by unfold NoReset; decide, inv_of_check (by decide), by decide⟩

theorem witness_SampleFallsSettleTicksAfterTheHit_last :
    let s := { wave 4 2 .bitWait 1 39 [false, true, true] with fifo := [1, 2, 3, 4] }
    Runs .bitHit s ∧ s.cfg.wf = true ∧ NoReset (s.cfg.settleTicks.toNat + 1) s ∧ Inv s ∧ s.bitcnt = 39 :=
  ⟨⟨by decide, by decide⟩, by decide, by unfold NoReset; decide, inv_of_check (by decide), by decide⟩

theorem witness_PulseWidthsAreClassified :
    let s := hitNow 4 15 (List.replicate 14 true ++ [false])
    Runs .bitHit s ∧ s.cfg.wf = true ∧ NoReset (s.cfg.settleTicks.toNat + 1) s ∧
    (∀ j, j ≤ s.cfg.settleTicks.toNat → s.lineAt j = decide (1 ≤ j ∧ j < 1 + 14)) :=
  ⟨⟨by decide, by decide⟩, by decide, by unfold NoReset; decide, by decide⟩

theorem witness_PulseWidthsAreClassified_long :
    let s := hitNow 4 34 (List.replicate 34 true)
    Runs .bitHit s ∧ s.cfg.wf = true ∧ NoReset (s.cfg.settleTicks.toNat + 1) s ∧
    (∀ j, j ≤ s.cfg.settleTicks.toNat → s.lineAt j = decide (1 ≤ j ∧ j < 1 + 35)) :=
  ⟨⟨by decide, by decide⟩, by decide, by unfold NoReset; decide, by decide⟩

/-- (a), at both ends of the range for `d` = 1, `L` = 3, `w` = 2: `S` = 2 and `S` = 3, the fall within `B` = 4 polls. -/
theorem witness_CellsAreCaughtAsStated_one :
    (let s := hitNow 4 2 [false, true, true, false];
      Runs .bitHit s ∧ Inv s ∧ s.bitcnt ≠ 39 ∧ NoReset (3 + 2 - 1 + 1) s ∧ CellAndNextLow s 1 3 2 (3 + 2 - 1) ∧
      3 ≤ 1 + s.cfg.settleTicks.toNat ∧ 3 + 2 - (1 + s.cfg.settleTicks.toNat) ≤ s.cfg.waitBudget.toNat) ∧
    (let s := hitNow 4 3 [false, true, true, false];
      Runs .bitHit s ∧ Inv s ∧ s.bitcnt ≠ 39 ∧ NoReset (3 + 2 - 1 + 1) s ∧ CellAndNextLow s 1 3 2 (3 + 2 - 1) ∧
      1 + s.cfg.settleTicks.toNat ≤ 3 + 2 - 1 ∧ 3 + 2 - (1 + s.cfg.settleTicks.toNat) ≤ s.cfg.waitBudget.toNat) :=
  ⟨⟨⟨by decide, by decide⟩, inv_of_check (by decide), by decide, by unfold NoReset; decide,
      by unfold CellAndNextLow; decide, by decide, by decide⟩,
    ⟨by decide, by decide⟩, inv_of_check (by decide), by decide, by unfold NoReset; decide,
      by unfold CellAndNextLow; decide, by decide, by decide⟩

/-- (a), the next fall one poll beyond `B` = 2: `d` = 0, `L` = 1, `w` = 4, `S` = 2. -/
theorem witness_CellsAreCaughtAsStated_late :
    let s := hitNow 2 2 [true, true, true, true, false]
    Runs .bitHit s ∧ Inv s ∧ s.bitcnt ≠ 39 ∧ NoReset (1 + 4 - 0 + 1) s ∧ CellAndNextLow s 0 1 4 (1 + 4 - 0) ∧
    1 ≤ 0 + s.cfg.settleTicks.toNat ∧ 0 + s.cfg.settleTicks.toNat ≤ 1 + 4 - 1 ∧
    s.cfg.waitBudget.toNat < 1 + 4 - (0 + s.cfg.settleTicks.toNat) :=
  ⟨⟨by decide, by decide⟩, inv_of_check (by decide), by decide, by unfold NoReset; decide,
    by unfold CellAndNextLow; decide, by decide, by decide, by decide⟩

/-- (b), at both ends of the range for `d` = 0, `L` = 3, `w` = 1: `S` = 4 and `S` = 5. -/
theorem witness_CellsAreCaughtAsStated_zero :
    (let s := hitNow 4 4 [false, false, true, false, false];
      Runs .bitHit s ∧ Inv s ∧ s.bitcnt ≠ 39 ∧ NoReset (s.cfg.settleTicks.toNat + 2) s ∧
      CellAndNextLow s 0 3 1 (s.cfg.settleTicks.toNat + 1) ∧ 3 + 1 = 0 + s.cfg.settleTicks.toNat) ∧
    (let s := hitNow 4 5 [false, false, true, false, false, false];
      Runs .bitHit s ∧ Inv s ∧ s.bitcnt ≠ 39 ∧ NoReset (s.cfg.settleTicks.toNat + 2) s ∧
      CellAndNextLow s 0 3 1 (s.cfg.settleTicks.toNat + 1) ∧ 0 + s.cfg.settleTicks.toNat = 2 * 3 + 1 - 2) :=
  ⟨⟨⟨by decide, by decide⟩, inv_of_check (by decide), by decide, by unfold NoReset; decide,
      by unfold CellAndNextLow; decide, by decide⟩,
    ⟨by decide, by decide⟩, inv_of_check (by decide), by decide, by unfold NoReset; decide,
      by unfold CellAndNextLow; decide, by decide⟩

theorem witness_ErrorLastsTheRestOfTheFrame :
    let s := wave 1 1 .error 0 38 [true, false]
    Inv s ∧ s.state = .error ∧ NoReset (40 - s.bitcnt.toNat) s :=
  ⟨inv_of_check (by decide), by decide, by unfold NoReset; decide⟩

/-- The transactions of `TransactionDeliversSamplesThenZeros`, `TransactionLengthIsBounded`,
`EmptyTransactionReadsAsPresent` and `TransactionsHaveTheListedProperties`: one that fails at its second wait, with nothing
sampled. -/
theorem witness_Transaction :
    Inv (startNow 3) ∧ Starts (startNow 3) ∧ NoReset (transactionBound (startNow 3) + 1) (startNow 3) :=
  ⟨inv_of_check (by decide), starts_startNow 3, noReset_startNow 3 _ (by decide)⟩

/-- A request of 1 tick accepted at this tick, `B` = `S` = 1, and a line that completes the handshake and then carries 40
cells of bit 1, each `L*1 H*1`. -/
def startWithCells : State :=
  { State.reset with
    cfg := ⟨1, 1, 2000⟩,
    inputs := ([true, true, true, false, true] ++ (List.replicate 40 [false, true]).flatten).map fun l =>
      { lineIn l with reqValid := true, reqTicks := 1 } }

/-- The same statements, for a transaction that has sampled its first bit at tick 6. -/
theorem witness_Transaction_sampled :
    Inv startWithCells ∧ Starts startWithCells ∧ NoReset (transactionBound startWithCells + 1) startWithCells ∧
    samples 7 startWithCells = [true] :=
  ⟨inv_of_check (by decide), ⟨rfl, rfl, rfl, rfl⟩, by unfold NoReset; decide, by decide⟩

/-- BIT.HIT at tick 5, its sample at tick 6. -/
theorem witness_EverySampleIsTheLineAfterItsHit :
    Inv startWithCells ∧ startWithCells.state = .idle ∧ NoReset 7 startWithCells ∧
    bitHits 7 startWithCells = [5] ∧ samples 7 startWithCells = [true] :=
  ⟨inv_of_check (by decide), rfl, by unfold NoReset; decide, by decide, by decide⟩

/-- Does no tick of the next `n + 1` execute a TIMEOUT? -/
def quiet : Nat → State → Bool
  | n, s =>
    !(!s.now.rst && [Instr.rise1Timeout, .fallTimeout, .rise2Timeout, .bitTimeout].any fun i => fsmOp s == some i) &&
      match n with
      | 0 => true
      | n + 1 =>
        match step s with
        | .next t => quiet n t
        | .fault _ => true
        | .refused _ => true

theorem quiet_now {n : Nat} {s : State} (h : quiet n s = true) : ¬ TimesOut s := by
  rintro (⟨hr, ho⟩ | ⟨hr, ho⟩ | ⟨hr, ho⟩ | ⟨hr, ho⟩) <;> cases n <;> simp [quiet, hr, ho] at h

theorem not_fails_of_quiet {n : Nat} {s : State} (h : quiet n s = true) : ¬ Fails n s := by
  rintro ⟨k, u, hk, hu, ht⟩
  induction k generalizing n s with
  | zero => cases hu; exact quiet_now h ht
  | succ k ih =>
    cases n with
    | zero => omega
    | succ n =>
      simp only [quiet, Bool.and_eq_true] at h
      cases hs : step s with
      | next t =>
        rw [hs] at h
        simp only [after, hs] at hu
        exact ih h.2 (by omega) hu
      | fault r => simp only [after, hs] at hu; cases hu
      | refused r => simp only [after, hs] at hu; cases hu

/-- (c): the transaction of `startWithCells`, busy for 84 ticks, does not fail. -/
theorem witness_TransactionsHaveTheListedProperties_success : ¬ Fails 84 startWithCells :=
  not_fails_of_quiet (by decide +kernel)

/-- (d): the transaction of `startNow 3` times out at tick 5, with no bit sampled. -/
theorem witness_TransactionsHaveTheListedProperties_failure :
    ∃ u, after 5 (startNow 3) = .next u ∧ TimesOut u ∧ u.bitcnt.toNat = 0 :=
  ⟨_, rfl, .inr (.inl ⟨rfl, rfl⟩), rfl⟩

theorem witness_EveryStateReachesIdle : Inv (wave 2 2 .settle 1 38 [true]) := inv_of_check (by decide)

theorem witness_HostCannotChangeARunningTransaction :
    let s := st .bitWait 5 17 1 [1, 2] (lineIn true)
    let s' := st .bitWait 5 17 1 [9] { lineIn true with reqValid := true, reqTicks := 8, outReady := true }
    SameFsm s s' ∧ (∀ k, k < 1 → s.lineAt k = s'.lineAt k ∧ (s.inputAt k).rst = (s'.inputAt k).rst) ∧
    (∀ k, k < 1 → AfterHolds k s fun u => u.state ≠ .idle) ∧
    after 1 s = .next (nextOf (after 1 s)) ∧ after 1 s' = .next (nextOf (after 1 s')) := by
  refine ⟨⟨rfl, rfl, rfl, rfl, rfl⟩, by decide, fun k hk => ?_, rfl, rfl⟩
  obtain rfl : k = 0 := by omega
  exact ⟨_, rfl, by decide⟩

theorem witness_ReadConvertsValidFramesOnly :
    (Frame.mk 0x01 0x90 0x00 0xC8 0x59).valid = true ∧ (Frame.mk 0x01 0x90 0x00 0xC8 0x58).valid = false := by decide

theorem witness_EmptyTransactionReadsAsPresent : (Frame.mk 0x80 0x80 0 0 0).b4 = 0 := by decide

theorem witness_ReadEndsWithTheFrame :
    let y : Station := ⟨{ State.reset with cfg := ⟨1, 1, 2000⟩ }, Driver.begin ⟨2, 1500000000⟩⟩
    Inv y.block ∧ y.block.state = .idle ∧ y.block.fifo = [] ∧ y.driver.phase = .requesting ∧
    max y.driver.cfg.triggerTicks.toNat 1 + 43 * y.block.cfg.waitBudget.toNat +
      40 * y.block.cfg.settleTicks.toNat + 2 ≤ (List.replicate 87 true).length :=
  ⟨inv_of_check (by decide), rfl, rfl, rfl, by decide⟩

theorem witness_ScriptStartsAfterReset :
    Script.wf [.param none (some 15), .req 3 0] = true ∧
    ScriptLine.param none (some 15) ∈ ([.param none (some 15), .req 3 0] : Script) ∧
    Script.wf [.req 3 0] = true ∧ ([.req 3 0] : Script).any ScriptLine.isParam = false := by decide

/-- A script with a line of every kind; and a run under a script. -/
theorem witness_ScriptRunsAsItsInputs :
    Script.wf [.param (some 1) none, .req 3 0, .req 4 50, .line [.cell true, .run false 2], .popAt [40], .popFrom 60,
      .resetAt 90] = true ∧
    (let b := Bench.start [.req 3 0, .line [.run true 1]];
      b.block.inputs = [] ∧ ∃ c, Bench.run 1 b = .next c) := ⟨by decide, rfl, _, rfl⟩

/-- The clauses of `ScriptPorts`, of a script with a macro before a run: the run's first tick (26), the tick after its
last (28), where the last level holds, and the requests before and after one START. -/
theorem witness_ScriptPorts :
    let pre : List LineItem := [.cell true]
    let sc : Script := [.req 3 0, .req 4 50, .line (pre ++ .run false 2 :: [])]
    let start := (pre.map (itemTicks (scriptConfig sc).settleTicks.toNat)).sum
    start = 26 ∧ (start ≤ 26 ∧ 26 < start + 2) ∧ ¬ 28 < start + 2 ∧
    sc = [] ++ .req 3 0 :: [.req 4 50, .line (pre ++ .run false 2 :: [])] ∧
    (([] : Script).filter ScriptLine.isReq).length = 0 ∧
    sc = [.req 3 0] ++ .req 4 50 :: [.line (pre ++ .run false 2 :: [])] ∧
    (([.req 3 0] : Script).filter ScriptLine.isReq).length = 1 := by decide

end Sys2Proof.Tests
end

section
/-! The invariant of 10_state.md R28 to R31 through one tick: each part is read off the step's inversion lemma
`step_effect`. -/

namespace Sys2Proof.Machine

/-! ## What the cases of a tick say -/

theorem loads_pos_of_wf {c : Config} (h : c.wf = true) : 1 ≤ c.waitBudget.toNat ∧ 1 ≤ c.settleTicks.toNat := by
  simp only [Config.wf, Bool.and_eq_true, bne_iff_ne, ne_eq] at h
  obtain ⟨hB, hS⟩ := h
  exact ⟨by bv_omega, by bv_omega⟩

/-- A hit leads to the next wait with `B` loaded, or to Settle with `S` loaded (41_bounded_waits.md R90). -/
theorem hit_leads_to {c : Ctrl} (h : isWait c = true) (k : Config) :
    (isWait (hitNext c) = true ∧ hitLoad k c = k.waitBudget) ∨
      (c = .bitWait ∧ hitNext c = .settle ∧ hitLoad k c = k.settleTicks) := by
  cases c <;> simp [isWait, hitNext, hitLoad] at h ⊢

/-- A shift inside the transaction goes on in BitWait with `B` loaded, or stays in Error with `cnt` as it is. -/
theorem ShiftsIn.goes_on {s : State} {b : Bool} {c : Ctrl} {n : Word} (h : ShiftsIn s b c n) :
    (s.state = .settle ∧ c = .bitWait ∧ n = s.cfg.waitBudget) ∨ (s.state = .error ∧ c = .error ∧ n = s.cnt) := by
  rcases h with ⟨hs, -, -, hc, hn⟩ | ⟨hs, -, hc, hn⟩
  · exact .inl ⟨hs, hc, hn⟩
  · exact .inr ⟨hs, hc, hn⟩

theorem bitcnt_succ_toNat {n : BitVec 6} (h : n.toNat ≤ 39) : (n + 1).toNat = n.toNat + 1 := by
  bv_omega

theorem bitcnt_lt_last {n : BitVec 6} (h : n.toNat ≤ 39) (hn : n ≠ 39) : n.toNat < 39 := by
  bv_omega

theorem cnt_pred_toNat {n : Word} (h : 1 < n.toNat) : (n - 1).toNat = n.toNat - 1 := by
  bv_omega

theorem opOf_ne_pop (c : Ctrl) (a h t : Bool) : opOf c a h t ≠ .pop := by
  cases c <;> cases a <;> cases h <;> cases t <;> decide

theorem fsmOp_start {s : State} (hs : s.state = .idle) (ha : acc s = true) : fsmOp s = some .start := by
  rw [fsmOp_eq, hs, ha]; rfl

/-! ## The FIFO over a tick -/

/-- No FSM operation takes a byte for the host. -/
theorem exec_popped {i : Instr} {s u : State} (hi : i ≠ .pop) (h : exec i s = .next u) : u.popped = s.popped := by
  cases i
  case sample => rcases shiftIn_cases h with ⟨_, rfl⟩ | ⟨_, _, _, rfl⟩ | ⟨_, _, rfl⟩ <;> rfl
  case errFill => rcases shiftIn_cases h with ⟨_, rfl⟩ | ⟨_, _, _, rfl⟩ | ⟨_, _, rfl⟩ <;> rfl
  case pop => exact absurd rfl hi
  all_goals cases h; rfl

/-- On a tick without reset the host takes what the tick's POP gives it. -/
theorem step_popped {s t : State} (hr : s.now.rst = false) (h : step s = .next t) :
    t.popped = (portDone s).popped := by
  obtain ⟨u, hu, rfl⟩ := step_eq_next h hr
  have hp : u.popped = (portDone s).popped := exec_popped (opOf_ne_pop _ _ _ _) hu
  exact hp

theorem portDone_popped_length (s : State) : s.popped.length ≤ (portDone s).popped.length := by
  unfold portDone; split
  · rw [fifoPop_popped, List.length_append]; omega
  · exact le_rfl

/-- The FIFO grows by no more than the bytes pushed. -/
theorem step_fifoCnt {s t : State} (hr : s.now.rst = false) (h : step s = .next t) {pushed : List Byte}
    (hb : stream t = stream s ++ pushed) : t.fifoCnt ≤ s.fifoCnt + pushed.length := by
  have hl := congrArg List.length hb
  have hp := portDone_popped_length s
  rw [← step_popped hr h] at hp
  simp only [stream, List.length_append, List.length_map] at hl
  simp only [State.fifoCnt]
  omega

/-! ## A tick answers a next state -/

theorem shiftIn_next {b : Bool} {s : State} (h : s.bitcnt.toNat % 8 = 7 → s.fifo.length < 5) :
    ∃ t, shiftIn b s = .next t := by
  by_cases hp : s.bitcnt.toNat % 8 = 7
  · exact ⟨_, shiftIn_push hp (h hp)⟩
  · exact ⟨_, shiftIn_inside hp⟩

/-- Every operation answers a next state if a shift finds room for the byte it ends. -/
theorem exec_next {i : Instr} {s : State}
    (h : i = .sample ∨ i = .errFill → s.bitcnt.toNat % 8 = 7 → s.fifo.length < 5) : ∃ t, exec i s = .next t := by
  cases i
  case sample => exact shiftIn_next (h (.inl rfl))
  case errFill => exact shiftIn_next (h (.inr rfl))
  all_goals exact ⟨_, rfl⟩

theorem ne_idle_of_opOf_shift {c : Ctrl} {a h t : Bool} (e : opOf c a h t = .sample ∨ opOf c a h t = .errFill) :
    c ≠ .idle := by
  rintro rfl
  cases a <;> simp [opOf] at e

/-- While a transaction runs there is room for a byte (10_state.md R29, R30). -/
theorem Inv.room {s : State} (hi : Inv s) (hs : s.state ≠ .idle) : s.fifo.length < 5 := by
  have hf : s.fifo.length ≤ s.bitcnt.toNat / 8 := hi.fifo.running hs
  have hb := hi.ranges.bitcnt
  omega

/-- No push finds the FIFO full: every tick from a state with the invariant answers a next state. -/
theorem Inv.step_next {s : State} (hi : Inv s) : ∃ t, step s = .next t := by
  by_cases hr : s.now.rst = true
  · exact ⟨_, step_of_rst hr⟩
  · obtain ⟨u, hu⟩ : ∃ u, exec (opOf s.state (acc s) (hit s) (tc s)) (portDone s) = .next u :=
      exec_next fun hop _ => lt_of_le_of_lt (portDone_fifo_length s) (hi.room (ne_idle_of_opOf_shift hop))
    exact ⟨u.advance, by rw [step_of_not_rst (by simpa using hr), hu, andThen_next]⟩

/-! ## The coarser views of a tick that the parts of the invariant need -/

theorem regs_eq_iff {t : State} {c : Ctrl} {n : Word} {k : BitVec 6} {v : Byte} :
    regs t = (c, n, k, v) ↔ t.state = c ∧ t.cnt = n ∧ t.bitcnt = k ∧ t.shreg = v := by
  simp only [regs, Prod.mk.injEq]

theorem ne_idle_of_isWait {c : Ctrl} (h : isWait c = true) : c ≠ .idle := by
  rintro rfl; cases h

theorem ShiftsIn.ne_idle {s : State} {b : Bool} {c : Ctrl} {n : Word} (h : ShiftsIn s b c n) :
    s.state ≠ .idle ∧ c ≠ .idle := by
  rcases h.goes_on with ⟨hs, hc, -⟩ | ⟨hs, hc, -⟩ <;> simp [hs, hc]

section
variable {s t : State}

/-- Idle is reached by resting there, or by the last bit of a transaction. -/
theorem TickEffect.to_idle (e : TickEffect s t) (ht : t.state = .idle) :
    (s.state = .idle ∧ regs t = regs s ∧ stream t = stream s) ∨
    (s.state ≠ .idle ∧ regs t = (.idle, 0, 0, 0) ∧ ∃ v, stream t = stream s ++ [v]) := by
  cases e with
  | rest hs _ hr hb => exact .inl ⟨hs, hr, hb⟩
  | last b c n hs _ hr hb => exact .inr ⟨hs.ne_idle.1, hr, _, hb⟩
  | start _ _ hr | release _ _ hr | timeout _ _ _ hr =>
    rw [(regs_eq_iff.mp hr).1] at ht; cases ht
  | down hs _ hr =>
    rw [(regs_eq_iff.mp hr).1] at ht
    simp [ht, isWait] at hs
  | hit hs _ hr =>
    rw [(regs_eq_iff.mp hr).1] at ht
    rcases hit_leads_to hs s.cfg with ⟨hw, -⟩ | ⟨-, hn, -⟩
    · exact absurd ht (ne_idle_of_isWait hw)
    · rw [hn] at ht; cases ht
  | inside _ _ _ hs _ hr | push _ _ _ hs _ _ hr =>
    exact absurd ((regs_eq_iff.mp hr).1 ▸ ht) hs.ne_idle.2

/-- What a tick into or inside a transaction does to the bits shifted in: START clears them, a shift adds one and at the
end of a byte pushes it, and every other operation keeps them. -/
theorem TickEffect.to_running (e : TickEffect s t) (ht : t.state ≠ .idle) :
    (s.fifo = [] ∧ t.bitcnt = 0 ∧ t.shreg = 0 ∧ stream t = stream s) ∨
    (s.state ≠ .idle ∧ t.bitcnt = s.bitcnt ∧ t.shreg = s.shreg ∧ stream t = stream s) ∨
    (s.state ≠ .idle ∧ s.bitcnt.toNat % 8 ≠ 7 ∧ t.bitcnt = s.bitcnt + 1 ∧ stream t = stream s ∧
      ∃ b, t.shreg = shifted s.shreg b) ∨
    (s.state ≠ .idle ∧ s.bitcnt.toNat % 8 = 7 ∧ s.bitcnt ≠ 39 ∧ t.bitcnt = s.bitcnt + 1 ∧ t.shreg = 0 ∧
      ∃ v, stream t = stream s ++ [v]) := by
  cases e with
  | rest hs _ hr => exact absurd ((regs_eq_iff.mp hr).1.trans hs) ht
  | last _ _ _ _ _ hr => exact absurd (regs_eq_iff.mp hr).1 ht
  | start _ ha hr hb =>
    obtain ⟨-, -, hk, hv⟩ := regs_eq_iff.mp hr
    exact .inl ⟨((acc_iff s).mp ha).2, hk, hv, hb⟩
  | down hs _ hr hb =>
    obtain ⟨hc, -, hk, hv⟩ := regs_eq_iff.mp hr
    exact .inr (.inl ⟨hc ▸ ht, hk, hv, hb⟩)
  | release hs _ hr hb =>
    obtain ⟨-, -, hk, hv⟩ := regs_eq_iff.mp hr
    exact .inr (.inl ⟨by simp [hs], hk, hv, hb⟩)
  | hit hs _ hr hb | timeout hs _ _ hr hb =>
    obtain ⟨-, -, hk, hv⟩ := regs_eq_iff.mp hr
    exact .inr (.inl ⟨ne_idle_of_isWait hs, hk, hv, hb⟩)
  | inside b c n hs hp hr hb =>
    obtain ⟨-, -, hk, hv⟩ := regs_eq_iff.mp hr
    exact .inr (.inr (.inl ⟨hs.ne_idle.1, hp, hk, hb, b, hv⟩))
  | push b c n hs hp h39 hr hb =>
    obtain ⟨-, -, hk, hv⟩ := regs_eq_iff.mp hr
    exact .inr (.inr (.inr ⟨hs.ne_idle.1, hp, h39, hk, hv, _, hb⟩))

/-- What a tick does to `cnt`, with the control state it does it in (10_state.md R22). -/
theorem TickEffect.cnt_cases (e : TickEffect s t) :
    (t.cnt = s.cnt ∧ t.state = s.state ∧ (s.state = .idle ∨ s.state = .error)) ∨
    (1 < s.cnt.toNat ∧ t.cnt.toNat = s.cnt.toNat - 1 ∧ t.state = s.state ∧ s.state ≠ .error) ∨
    (t.cnt = 0 ∧ (t.state = .error ∨ t.state = .idle)) ∨
    (t.cnt = s.now.reqTicks ∧ t.state = .trigger ∧ fsmOp s = some .start) ∨
    (t.cnt = s.cfg.waitBudget ∧ isWait t.state = true) ∨ (t.cnt = s.cfg.settleTicks ∧ t.state = .settle) := by
  cases e with
  | rest hs _ hr =>
    obtain ⟨hc, hn, -, -⟩ := regs_eq_iff.mp hr
    exact .inl ⟨hn, hc, .inl hs⟩
  | start hs ha hr =>
    obtain ⟨hc, hn, -, -⟩ := regs_eq_iff.mp hr
    exact .inr (.inr (.inr (.inl ⟨hn, hc, fsmOp_start hs ha⟩)))
  | down hs h1 hr =>
    obtain ⟨hc, hn, -, -⟩ := regs_eq_iff.mp hr
    refine .inr (.inl ⟨h1, by rw [hn, cnt_pred_toNat h1], hc, fun he => ?_⟩)
    simp [he, isWait] at hs
  | release _ _ hr =>
    obtain ⟨hc, hn, -, -⟩ := regs_eq_iff.mp hr
    exact .inr (.inr (.inr (.inr (.inl ⟨hn, by rw [hc]; rfl⟩))))
  | hit hs _ hr =>
    obtain ⟨hc, hn, -, -⟩ := regs_eq_iff.mp hr
    rcases hit_leads_to hs s.cfg with ⟨hw, hl⟩ | ⟨-, hx, hl⟩
    · exact .inr (.inr (.inr (.inr (.inl ⟨hn.trans hl, hc ▸ hw⟩))))
    · exact .inr (.inr (.inr (.inr (.inr ⟨hn.trans hl, hc.trans hx⟩))))
  | timeout _ _ _ hr =>
    obtain ⟨hc, hn, -, -⟩ := regs_eq_iff.mp hr
    exact .inr (.inr (.inl ⟨hn, .inl hc⟩))
  | inside _ _ _ hs _ hr | push _ _ _ hs _ _ hr =>
    obtain ⟨hc, hn, -, -⟩ := regs_eq_iff.mp hr
    rcases hs.goes_on with ⟨-, hx, hl⟩ | ⟨he, hx, hl⟩
    · exact .inr (.inr (.inr (.inr (.inl ⟨hn.trans hl, by rw [hc, hx]; rfl⟩))))
    · exact .inl ⟨hn.trans hl, by rw [hc, hx, he], .inr he⟩
  | last _ _ _ _ _ hr =>
    obtain ⟨hc, hn, -, -⟩ := regs_eq_iff.mp hr
    exact .inr (.inr (.inl ⟨hn, .inr hc⟩))

/-! ## A tick keeps each part of the invariant -/

/-- R28 through a tick. -/
theorem TickEffect.cleanIdle (e : TickEffect s t) (hi : Inv s) : CleanIdle t := by
  intro ht
  rcases e.to_idle ht with ⟨hs, hr, -⟩ | ⟨-, hr, -⟩
  · obtain ⟨-, hn, hk, hv⟩ := regs_eq_iff.mp hr
    rw [hn, hk, hv]
    exact hi.clean hs
  · obtain ⟨-, hn, hk, hv⟩ := regs_eq_iff.mp hr
    exact ⟨hk, hv, hn⟩

/-- R31 through a tick: a shift inside a byte doubles the bound. -/
theorem TickEffect.accumulatorBound (e : TickEffect s t) (hi : Inv s) : AccumulatorBound t := by
  have ha : s.shreg.toNat < 2 ^ (s.bitcnt.toNat % 8) := hi.accumulator
  unfold AccumulatorBound
  by_cases ht : t.state = .idle
  · simp [e.cleanIdle hi ht]
  · rcases e.to_running ht with ⟨-, hk, hv, -⟩ | ⟨-, hk, hv, -⟩ | ⟨-, hp, hk, -, b, hv⟩ | ⟨-, -, -, -, hv, -⟩
    · simp [hk, hv]
    · rwa [hk, hv]
    · have hmod : (s.bitcnt.toNat + 1) % 8 = s.bitcnt.toNat % 8 + 1 := by omega
      have hb : b.toNat ≤ 1 := Bool.toNat_le b
      rw [hk, hv, shifted_toNat, bitcnt_succ_toNat hi.ranges.bitcnt, hmod, pow_succ]
      exact lt_of_le_of_lt (Nat.mod_le _ _) (by omega)
    · rw [hv]
      exact Nat.two_pow_pos _

/-- R29's bound on `bitcnt` through a tick. -/
theorem TickEffect.bitcnt_le (e : TickEffect s t) (hi : Inv s) : t.bitcnt.toNat ≤ 39 := by
  have hb := hi.ranges.bitcnt
  by_cases ht : t.state = .idle
  · simp [e.cleanIdle hi ht]
  · rcases e.to_running ht with ⟨-, hk, -⟩ | ⟨-, hk, -⟩ | ⟨-, hp, hk, -⟩ | ⟨-, -, h39, hk, -⟩
    · simp [hk]
    · rwa [hk]
    · rw [hk, bitcnt_succ_toNat hb]
      omega
    · rw [hk, bitcnt_succ_toNat hb]
      exact bitcnt_lt_last hb h39

/-- R29 through a tick. -/
theorem TickEffect.counterRanges (e : TickEffect s t) (hi : Inv s) (hcfg : t.cfg = s.cfg) : CounterRanges t := by
  obtain ⟨hB, hS⟩ := loads_pos_of_wf hi.config
  obtain ⟨hwait, hsettle, herror, -⟩ := hi.ranges
  have hbit := e.bitcnt_le hi
  rcases e.cnt_cases with ⟨hn, hc, hs⟩ | ⟨h1, hn, hc, hs⟩ | ⟨hn, hc⟩ | ⟨-, hc, -⟩ | ⟨hn, hc⟩ | ⟨hn, hc⟩
  · refine ⟨?_, ?_, ?_, hbit⟩ <;> rw [hc] <;> intro h
    · rw [hn, hcfg]; exact hwait h
    · rw [hn, hcfg]; exact hsettle h
    · rw [hn]; exact herror h
  · refine ⟨?_, ?_, ?_, hbit⟩ <;> rw [hc] <;> intro h
    · have := hwait h; rw [hn, hcfg]; omega
    · have := hsettle h; rw [hn, hcfg]; omega
    · exact absurd h hs
  · exact ⟨fun h => by rcases hc with hc | hc <;> simp [hc, isWait] at h,
      fun h => by rcases hc with hc | hc <;> simp [hc] at h, fun _ => hn, hbit⟩
  · exact ⟨by simp [hc, isWait], by simp [hc], by simp [hc], hbit⟩
  · rw [← hcfg] at hn hB
    exact ⟨fun _ => ⟨hn ▸ hB, hn ▸ le_rfl⟩, fun h => by simp [h, isWait] at hc, fun h => by simp [h, isWait] at hc,
      hbit⟩
  · rw [← hcfg] at hn hS
    exact ⟨by simp [hc, isWait], fun _ => ⟨hn ▸ hS, hn ▸ le_rfl⟩, by simp [hc], hbit⟩

/-- R30 through a tick, given that the FIFO grows by no more than the bytes pushed. -/
theorem TickEffect.fifoBound (e : TickEffect s t) (hi : Inv s)
    (hgrow : ∀ pushed, stream t = stream s ++ pushed → t.fifoCnt ≤ s.fifoCnt + pushed.length) : FifoBound t := by
  have hb := hi.ranges.bitcnt
  have hkeep : stream t = stream s → t.fifoCnt ≤ s.fifoCnt := fun h => hgrow [] (by simpa using h)
  constructor
  · intro ht
    rcases e.to_running ht with ⟨hf, -, -, hst⟩ | ⟨hs, hk, -, hst⟩ | ⟨hs, -, hk, hst, -⟩ | ⟨hs, hp, -, hk, -, v, hst⟩
    · have h0 : s.fifoCnt = 0 := by simp [State.fifoCnt, hf]
      have := hkeep hst
      omega
    · rw [hk]
      exact (hkeep hst).trans (hi.fifo.running hs)
    · have := hkeep hst
      have := hi.fifo.running hs
      rw [hk, bitcnt_succ_toNat hb]
      omega
    · have : t.fifoCnt ≤ s.fifoCnt + 1 := hgrow [v] hst
      have := hi.fifo.running hs
      rw [hk, bitcnt_succ_toNat hb]
      omega
  · intro ht
    rcases e.to_idle ht with ⟨hs, -, hst⟩ | ⟨hs, -, v, hst⟩
    · exact (hkeep hst).trans (hi.fifo.idle hs)
    · exact (hgrow [v] hst).trans (hi.room hs)

/-- Nothing is shifted in before the first bit wait: through a tick. -/
theorem TickEffect.handshakeClean (e : TickEffect s t) (hi : Inv s) : HandshakeClean t := by
  intro ht
  cases e with
  | start _ _ hr =>
    obtain ⟨-, -, hk, hv⟩ := regs_eq_iff.mp hr
    exact ⟨hk, hv⟩
  | down _ _ hr =>
    obtain ⟨hc, -, hk, hv⟩ := regs_eq_iff.mp hr
    rw [hk, hv]
    exact hi.handshake (hc ▸ ht)
  | release hs _ hr =>
    obtain ⟨-, -, hk, hv⟩ := regs_eq_iff.mp hr
    rw [hk, hv]
    exact hi.handshake (.inl hs)
  | hit hs _ hr =>
    obtain ⟨hc, -, hk, hv⟩ := regs_eq_iff.mp hr
    rw [hk, hv]
    refine hi.handshake ?_
    rw [hc] at ht
    cases h : s.state <;> simp [h, hitNext, isWait] at ht hs ⊢
  | rest hs _ hr =>
    have hc := (regs_eq_iff.mp hr).1
    simp [hc, hs] at ht
  | timeout _ _ _ hr | last _ _ _ _ _ hr =>
    have hc := (regs_eq_iff.mp hr).1
    simp [hc] at ht
  | inside _ _ _ hs _ hr | push _ _ _ hs _ _ hr =>
    have hc := (regs_eq_iff.mp hr).1
    rcases hs.goes_on with ⟨-, hx, -⟩ | ⟨-, hx, -⟩ <;> simp [hc, hx] at ht

/-- Registers at their reset values meet the invariant. -/
theorem inv_of_reset_regs (h : s.cfg.wf = true) : Inv s.resetRegs where
  config := h
  clean _ := ⟨rfl, rfl, rfl⟩
  ranges := ⟨nofun, nofun, nofun, Nat.zero_le _⟩
  fifo := ⟨fun h => absurd rfl h, fun _ => Nat.zero_le _⟩
  accumulator := Nat.one_pos
  handshake _ := ⟨rfl, rfl⟩

/-- Every tick keeps the invariant. -/
theorem inv_step (hi : Inv s) (h : step s = .next t) : Inv t := by
  have hcfg : t.cfg = s.cfg := step_cfg h
  by_cases hr : s.now.rst = true
  · rw [step_of_rst hr] at h; cases h
    exact inv_of_reset_regs (s := s.advance) hi.config
  · have hr : s.now.rst = false := by simpa using hr
    have e := step_effect hr h
    exact {
      config := hcfg ▸ hi.config
      clean := e.cleanIdle hi
      ranges := e.counterRanges hi hcfg
      fifo := e.fifoBound hi fun _ => step_fifoCnt hr h
      accumulator := e.accumulatorBound hi
      handshake := e.handshakeClean hi }

/-- Every state of a run from reset has the invariant. -/
theorem Reachable.inv (h : Reachable s) : Inv s := by
  induction h with
  | reset s hc => exact inv_of_reset_regs hc
  | tick s t _ hs ih => exact inv_step ih hs

/-- `cnt` is 0 in Trigger only after a START with request 0 (10_state.md R29). -/
theorem start_of_trigger_cnt_zero (h : step s = .next t) (ht : t.state = .trigger) (h0 : t.cnt = 0) :
    fsmOp s = some .start ∧ s.now.reqTicks = 0 := by
  by_cases hr : s.now.rst = true
  · rw [step_of_rst hr] at h; cases h
    cases ht
  · rcases (step_effect (by simpa using hr) h).cnt_cases with
      ⟨-, hc, hs⟩ | ⟨h1, hn, -⟩ | ⟨-, hc⟩ | ⟨hn, -, hop⟩ | ⟨-, hc⟩ | ⟨-, hc⟩
    · simp [← hc, ht] at hs
    · have hz : t.cnt.toNat = 0 := by rw [h0]; rfl
      omega
    · simp [ht] at hc
    · exact ⟨hop, hn.symm.trans h0⟩
    · simp [ht, isWait] at hc
    · simp [ht] at hc

end

end Sys2Proof.Machine
end

section
/-! The statements on the state: reset, the invariant of every reachable state, and the counter. -/

namespace Sys2Proof.Machine

/-- Settles O1: a tick with reset is `step_of_rst`, and the outputs are read off the reset registers. -/
theorem resetLeavesTheStatedValues : Obligations.ResetLeavesTheStatedValues :=
  ⟨fun _ hr => step_of_rst hr, ⟨rfl, rfl, rfl, rfl, rfl⟩, fun _ => ⟨rfl, rfl, rfl, rfl, rfl⟩⟩

/-- Settles O30: reset gives the invariant and every tick keeps it, so every reachable state has it. -/
theorem reachableStatesMeetTheInvariants : Obligations.ReachableStatesMeetTheInvariants := by
  intro s h
  have hi := h.inv
  exact ⟨hi.clean, hi.ranges, hi.fifo, hi.accumulator, hi.step_next, fun _ => start_of_trigger_cnt_zero⟩

/-- Settles O33, by what each operation does to `cnt`: only those that run with `cnt` above 1 count down. -/
theorem counterNeverWraps : Obligations.CounterNeverWraps := by
  intro s t hr h
  rcases (step_effect hr h).cnt_cases with
    ⟨hn, -⟩ | ⟨h1, hn, -⟩ | hzero | ⟨hn, -, hop⟩ | hwait | hsettle
  · exact .inl hn
  · exact .inr (.inl ⟨h1, hn⟩)
  · exact .inr (.inr (.inl hzero))
  · exact .inr (.inr (.inr (.inl ⟨hn, hop⟩)))
  · exact .inr (.inr (.inr (.inr (.inl hwait))))
  · exact .inr (.inr (.inr (.inr (.inr hsettle))))

end Sys2Proof.Machine
end

section
/-! The statements on the ports: the outputs as functions of the registers (20_memory.md R42), and the frame of a tick. -/

namespace Sys2Proof.Machine

/-! ## What each output shows -/

section
variable (s : State)

theorem lineOe_iff : lineOe s = true ↔ s.state = .trigger := decide_eq_true_iff

theorem reqReady_iff : reqReady s = true ↔ s.state = .idle ∧ s.fifo.length = 0 := by
  simp [reqReady, State.fifoCnt]

theorem outValid_iff : outValid s = true ↔ 0 < s.fifo.length := decide_eq_true_iff

theorem busy_iff : busy s = true ↔ s.state ≠ .idle := decide_eq_true_iff

/-- The line is driven low in Trigger and released elsewhere (30_encoding.md R72). -/
theorem drive_eq : drive s = if s.state = .trigger then (true, false) else (false, false) := by
  by_cases hs : s.state = .trigger
  · rw [if_pos hs, drive, (lineOe_iff s).mpr hs]; rfl
  · rw [if_neg hs, drive, Bool.eq_false_iff.mpr (mt (lineOe_iff s).mp hs)]; rfl

end

theorem outByte_of_cons {s : State} {b : Byte} {rest : List Byte} (h : s.fifo = b :: rest) : outByte s = b := by
  simp [outByte, h]

/-! ## What the host takes on a tick -/

/-- POP takes the byte that `out_byte` shows (43_error_fill_and_output.md R123). -/
theorem fifoPop_popped_of_outValid {s : State} (h : outValid s = true) :
    (fifoPop s).popped = s.popped ++ [(s.tick, outByte s)] := by
  obtain ⟨b, rest, hf⟩ := List.exists_cons_of_length_pos ((outValid_iff s).mp h)
  rw [fifoPop_popped, outByte_of_cons hf, hf]; rfl

/-- The host takes a byte on a tick exactly when there is one and it is ready. -/
theorem portDone_popped (s : State) :
    (portDone s).popped =
      s.popped ++ (if outValid s = true ∧ s.now.outReady = true then [(s.tick, outByte s)] else []) := by
  by_cases h : outValid s = true ∧ s.now.outReady = true
  · rw [portDone, if_pos (Bool.and_eq_true_iff.mpr h), if_pos h, fifoPop_popped_of_outValid h.1]
  · rw [portDone, if_neg (mt Bool.and_eq_true_iff.mp h), if_neg h, List.append_nil]

/-! ## The statements -/

/-- Settles O31: the frame laws of a step, and what the tick's POP, which only a tick without reset runs, hands to the
host. -/
theorem everyTickKeepsTheOutsideWorld : Obligations.EveryTickKeepsTheOutsideWorld := by
  intro s t h
  obtain ⟨hinputs, htick⟩ := step_inputs_tick h
  refine ⟨step_cfg h, htick, hinputs, ?_⟩
  by_cases hr : s.now.rst = true
  · rw [step_of_rst hr] at h; cases h
    simp [hr]
  · have hr : s.now.rst = false := by simpa using hr
    rw [step_popped hr h, portDone_popped]
    simp only [hr, true_and]

/-- Settles O21: each output by its own lemma; the inputs of the tick stand in none of the fields they read. -/
theorem outputsAreMoore : Obligations.OutputsAreMoore := fun s _ =>
  ⟨lineOe_iff s, rfl, reqReady_iff s, outValid_iff s, fun _ _ => outByte_of_cons, busy_iff s, drive_eq s,
    rfl, rfl, rfl, rfl, rfl, rfl⟩

end Sys2Proof.Machine
end

section
/-! The statements on the encoding (30_encoding.md R64 to R67): the rows of the dispatch table, the condition bits and
the operation a tick runs. -/

namespace Sys2Proof.Machine

/-! ## The rows of the dispatch format -/

/-- The lemma of each operation's row (Laws/PerInstr.lean), for every operation. -/
theorem rowWords (i : Instr) : Laws.RowWords.Statement i := by
  cases i
  open Laws.RowWords in
  exacts [idleWait, start, trigHold, trigRelease, rise1Hit, rise1Poll, rise1Timeout, fallHit, fallPoll, fallTimeout,
    rise2Hit, rise2Poll, rise2Timeout, bitHit, bitPoll, bitTimeout, settleHold, sample, errFill, pop]

theorem selects_dispatch_iff {r : Row} {d : BitVec 6} :
    r.selects ⟨.dispatch, d.toNat⟩ = true ↔ r.format = .dispatch ∧ d.toNat &&& r.mask = r.value := by
  simp [Row.selects]

theorem decode_dispatch_toOption (d : BitVec 6) :
    (decode ⟨.dispatch, d.toNat⟩).toOption = decodeDispatch d := by
  have hw : OpWord.wf ⟨.dispatch, d.toNat⟩ = true := decide_eq_true d.isLt
  rw [decode, if_pos hw]
  simp only [BitVec.ofNat_toNat, BitVec.setWidth_eq]
  cases decodeDispatch d <;> rfl

theorem decodeDispatch_isSome : ∀ d : BitVec 6, (decodeDispatch d).isSome = true := by decide

/-- The decoder answers an operation exactly if the word matches the operation's row. -/
theorem decodeDispatch_eq_some_iff {d : BitVec 6} {i : Instr} :
    decodeDispatch d = some i ↔ i.row.format = .dispatch ∧ d.toNat &&& i.row.mask = i.row.value := by
  rw [← selects_dispatch_iff]
  constructor
  · intro h
    exact List.find?_some (p := fun i : Instr => i.row.selects ⟨.dispatch, d.toNat⟩) h
  · intro h
    have hwords := (rowWords i).2
    rw [(selects_dispatch_iff.mp h).1] at hwords
    rw [← decode_dispatch_toOption]
    exact hwords ⟨d.toNat, d.isLt⟩ h

/-- Settles O3: the decoder answers every dispatch word, and it answers exactly the operations whose row the word
matches. -/
theorem everyDispatchWordMatchesOneRow : Obligations.EveryDispatchWordMatchesOneRow := by
  intro d
  obtain ⟨i, hi⟩ := Option.isSome_iff_exists.mp (decodeDispatch_isSome d)
  obtain ⟨hformat, hmatch⟩ := decodeDispatch_eq_some_iff.mp hi
  refine ⟨i, ⟨hformat, hmatch, hi⟩, fun j hf hm => ?_⟩
  exact Option.some.inj ((decodeDispatch_eq_some_iff.mpr ⟨hf, hm⟩).symm.trans hi)

/-! ## The condition bits -/

theorem acc_of_idle {s : State} (hs : s.state = .idle) : acc s = (s.now.reqValid && reqReady s) := by
  simp [acc, reqReady, hs]

/-- Settles O4, by the lemma of each condition bit. -/
theorem conditionBitsAreAsStated : Obligations.ConditionBitsAreAsStated := by
  refine ⟨fun s => ⟨?_, hit_iff s, tc_iff s, acc_of_idle⟩, rfl, rfl, rfl, rfl, rfl, rfl, rfl, rfl⟩
  rw [acc_iff, List.length_eq_zero_iff]

/-! ## The operation of a tick -/

/-- The fields of a dispatch word `state[2:0] acc hit tc` (30_encoding.md R64). -/
theorem dispatchFields : ∀ (c : BitVec 3) (a h t : Bool),
    let d := ((c ++ BitVec.ofBool a) ++ BitVec.ofBool h) ++ BitVec.ofBool t
    d.extractLsb' 3 3 = c ∧ d.getLsbD 2 = a ∧ d.getLsbD 1 = h ∧ d.getLsbD 0 = t := by decide

/-- Settles O5: the operation is the one of `fsmOp_eq`, and `step_of_not_rst` runs it on the state after the tick's POP,
if there is one. -/
theorem tickRunsTheDecodedOperation : Obligations.TickRunsTheDecodedOperation := by
  intro s
  obtain ⟨hcode, hacc, hhit, htc⟩ := dispatchFields s.state.code (acc s) (hit s) (tc s)
  refine ⟨hcode, hacc, hhit, htc, step_of_rst, fun hr => ?_⟩
  have hop : decodeDispatch (dispatchWord s) = some (opOf s.state (acc s) (hit s) (tc s)) := fsmOp_eq s
  obtain ⟨hformat, hmatch⟩ := decodeDispatch_eq_some_iff.mp hop
  refine ⟨_, hformat, hmatch, hop, fun hp => ?_, fun hp => ?_⟩
  · rw [step_of_not_rst hr, portDone, hp]; rfl
  · rw [step_of_not_rst hr, portDone, hp]; rfl

end Sys2Proof.Machine
end

section
/-! The statements on stimulus scripts (30_encoding.md R70, R71): the state a script starts from, the ports it gives each
tick, the run on the list of these ports, and the macros. -/

namespace Sys2Proof.Machine

/-! ## The start of a script -/

theorem scriptConfig_of_no_param {sc : Script} (h : sc.any ScriptLine.isParam = false) :
    scriptConfig sc = Config.default := by
  cases sc with
  | nil => rfl
  | cons a rest =>
    cases a
    case param => cases h
    all_goals rfl

/-- Settles O51: the registers are those of `State.reset`, and a PARAM line is the script's first. -/
theorem scriptStartsAfterReset : Obligations.ScriptStartsAfterReset := by
  intro sc hwf
  refine ⟨⟨rfl, rfl, rfl, rfl, rfl, rfl, rfl⟩, fun b S hm => ?_, fun hno => ?_⟩
  · obtain ⟨rest, rfl⟩ := param_is_first hwf hm
    exact ⟨rfl, rfl⟩
  · have hcfg : (Bench.start sc).block.cfg = Config.default := scriptConfig_of_no_param hno
    rw [hcfg]
    exact ⟨rfl, rfl⟩

/-! ## The ports that the lines of a script give -/

theorem scriptRst_iff {sc : Script} {t : Nat} : scriptRst sc t = true ↔ .resetAt t ∈ sc := by
  rw [scriptRst, List.any_eq_true]
  constructor
  · rintro ⟨a, hm, ha⟩
    cases a with
    | resetAt u => rwa [← beq_iff_eq.mp ha]
    | _ => cases ha
  · exact fun hm => ⟨_, hm, beq_self_eq_true t⟩

theorem scriptOutReady_iff {sc : Script} {t : Nat} :
    scriptOutReady sc t = true ↔ (∃ ts, .popAt ts ∈ sc ∧ t ∈ ts) ∨ ∃ u, .popFrom u ∈ sc ∧ u ≤ t := by
  rw [scriptOutReady, List.any_eq_true]
  constructor
  · rintro ⟨a, hm, ha⟩
    cases a with
    | popAt ts => exact .inl ⟨ts, hm, List.contains_iff_mem.mp ha⟩
    | popFrom u => exact .inr ⟨u, hm, of_decide_eq_true ha⟩
    | _ => cases ha
  · rintro (⟨ts, hm, ht⟩ | ⟨u, hm, hu⟩)
    · exact ⟨_, hm, List.contains_iff_mem.mpr ht⟩
    · exact ⟨_, hm, decide_eq_true hu⟩

theorem Bench.request_eq_some_iff {b : Bench} {n : Word} :
    b.request = some n ↔ ∃ u, b.reqs[0]? = some (n, u) ∧ u ≤ b.block.tick := by
  unfold Bench.request
  cases b.reqs with
  | nil => simp
  | cons q rest => obtain ⟨m, u⟩ := q; simp [and_comm]

/-! ## What a bench keeps while it runs a script -/

theorem inv_withNow {s : State} (h : Inv s) (i : Inputs) : Inv (s.withNow i) :=
  ⟨h.config, h.clean, ⟨h.ranges.wait, h.ranges.settle, h.ranges.error, h.ranges.bitcnt⟩,
    ⟨h.fifo.running, h.fifo.idle⟩, h.accumulator, h.handshake⟩

/-- A tick under a script is the block's tick on the ports of the script, and START takes the first request. -/
theorem Bench.tick_of_step {b : Bench} {s : State} (h : step (b.block.withNow b.ports) = .next s) :
    b.tick = .next { b with block := s, reqs := if b.takes then b.reqs.tail else b.reqs } := by
  rw [Bench.tick, h]

theorem Bench.tick_eq_next {b c : Bench} (h : b.tick = .next c) :
    step (b.block.withNow b.ports) = .next c.block := by
  unfold Bench.tick at h
  split at h <;> cases h
  assumption

theorem Bench.run_succ_of_tick {b c : Bench} (h : b.tick = .next c) (n : Nat) : Bench.run (n + 1) b = Bench.run n c := by
  rw [Bench.run, h]

theorem Bench.denote_succ_of_tick {b c : Bench} (h : b.tick = .next c) (n : Nat) :
    Bench.denote (n + 1) b = b.ports :: Bench.denote n c := by
  rw [Bench.denote, h]

theorem Bench.startsWithin_succ_of_tick {b c : Bench} (h : b.tick = .next c) (n : Nat) :
    Bench.startsWithin (n + 1) b = (if b.takes then 1 else 0) + Bench.startsWithin n c := by
  simp only [Bench.startsWithin, h, b.takes_iff]

/-- The bench `b` stands at tick `t` of the script, before which START has executed `j` times. -/
structure Bench.StandsAt (sc : Script) (t j : Nat) (b : Bench) : Prop where
  script : b.script = sc
  reqs : b.reqs = (scriptReqs sc).drop j
  tick : b.block.tick = t
  cfg : b.block.cfg = scriptConfig sc
  inv : Inv b.block

theorem Bench.start_standsAt {sc : Script} (h : Script.wf sc = true) : (Bench.start sc).StandsAt sc 0 0 :=
  ⟨rfl, rfl, rfl, rfl, inv_of_reset_regs (s := (Bench.start sc).block) (scriptConfig_wf h)⟩

/-- A tick under a script answers the bench at the next tick. -/
theorem Bench.StandsAt.tick_next {sc : Script} {t j : Nat} {b : Bench} (h : b.StandsAt sc t j) :
    ∃ c, b.tick = .next c ∧ c.StandsAt sc (t + 1) (j + if b.takes then 1 else 0) := by
  have hinv := inv_withNow h.inv b.ports
  obtain ⟨s, hs⟩ := hinv.step_next
  have htick : s.tick = b.block.tick + 1 := (step_inputs_tick hs).2
  refine ⟨_, Bench.tick_of_step hs, h.script, ?_, htick.trans (by rw [h.tick]), (step_cfg hs).trans h.cfg,
    inv_step hinv hs⟩
  cases b.takes
  · exact h.reqs
  · show b.reqs.tail = _
    rw [h.reqs, List.tail_drop]; rfl

/-- A run under a script answers, and the list of its ports goes on with those of the bench it answers. -/
theorem Bench.StandsAt.run_next {sc : Script} (n : Nat) {t j : Nat} {b : Bench} (h : b.StandsAt sc t j) :
    ∃ c, Bench.run n b = .next c ∧ c.StandsAt sc (t + n) (j + Bench.startsWithin n b) ∧
      (Bench.denote (n + 1) b)[n]? = some c.ports := by
  induction n generalizing t j b with
  | zero => exact ⟨b, rfl, h, rfl⟩
  | succ n ih =>
    obtain ⟨b', hb', h'⟩ := h.tick_next
    obtain ⟨c, hrun, hc, hports⟩ := ih h'
    refine ⟨c, by rw [Bench.run_succ_of_tick hb', hrun], ?_, ?_⟩
    · rwa [Bench.startsWithin_succ_of_tick hb', ← Nat.add_assoc j, Nat.add_comm n, ← Nat.add_assoc t]
    · rw [Bench.denote_succ_of_tick hb', List.getElem?_cons_succ, hports]

/-- The request at the port is the REQ line with `j` REQ lines before it, once its tick has come. -/
theorem Bench.StandsAt.request_iff {sc : Script} {t j : Nat} {b : Bench} (h : b.StandsAt sc t j) (n : Word) :
    b.request = some n ↔
      ∃ pre u post, sc = pre ++ .req n u :: post ∧ (pre.filter ScriptLine.isReq).length = j ∧ u ≤ t := by
  simp only [Bench.request_eq_some_iff, h.reqs, h.tick, List.getElem?_drop, Nat.add_zero, scriptReqs_getElem?]
  constructor
  · rintro ⟨u, ⟨pre, post, hsc, hj⟩, hu⟩
    exact ⟨pre, u, post, hsc, hj, hu⟩
  · rintro ⟨pre, u, post, hsc, hj, hu⟩
    exact ⟨u, ⟨pre, post, hsc, hj⟩, hu⟩

/-- The ports of a bench are those that the lines of its script give its tick. -/
theorem Bench.StandsAt.ports {sc : Script} (hwf : Script.wf sc = true) {t j : Nat} {b : Bench} (h : b.StandsAt sc t j) :
    ScriptPorts sc t j b.ports where
  rst := by
    show scriptRst b.script b.block.tick = true ↔ _
    rw [h.script, h.tick, scriptRst_iff]
  outReady := by
    show scriptOutReady b.script b.block.tick = true ↔ _
    rw [h.script, h.tick, scriptOutReady_iff]
  reqValid := by
    show b.request.isSome = true ↔ _
    rw [Option.isSome_iff_exists]
    constructor
    · rintro ⟨n, hn⟩
      obtain ⟨pre, u, post, hline⟩ := (h.request_iff n).mp hn
      exact ⟨pre, n, u, post, hline⟩
    · rintro ⟨pre, n, u, post, hline⟩
      exact ⟨n, (h.request_iff n).mpr ⟨pre, u, post, hline⟩⟩
  reqTicks := by
    intro pre n u post hsc hj hu
    show b.request.getD 0 = n
    rw [(h.request_iff n).mpr ⟨pre, u, post, hsc, hj, hu⟩]; rfl
  lineI := by
    intro pre l k post hm start hstart hend
    show (runsLevel (scriptRuns b.block.cfg.settleTicks.toNat b.script) b.block.tick).getD _ = l
    rw [h.script, h.tick, h.cfg, scriptRuns_of_line hwf hm, runsLevel_run _ pre l k post t hstart hend]; rfl

/-! ## The run on a list of ports

What an operation does depends on the coming inputs through those of its tick alone. -/

/-- `s` with the coming inputs replaced. -/
def State.withInputs (s : State) (is : List Inputs) : State := { s with inputs := is }

theorem State.withInputs_of_inputs_eq {s : State} {is : List Inputs} (h : s.inputs = is) : s.withInputs is = s := by
  subst h; rfl

theorem fifoPop_withInputs (s : State) (is : List Inputs) :
    fifoPop (s.withInputs is) = (fifoPop s).withInputs is := by
  cases h : s.fifo <;> simp [fifoPop, State.withInputs, h]

theorem shiftIn_withInputs {b : Bool} {s u : State} (h : shiftIn b s = .next u) (is : List Inputs) :
    shiftIn b (s.withInputs is) = .next (u.withInputs is) := by
  rcases shiftIn_cases h with ⟨hp, rfl⟩ | ⟨hp, h39, hf, rfl⟩ | ⟨h39, hf, rfl⟩
  · exact shiftIn_inside (s := s.withInputs is) hp
  · rw [shiftIn_push (s := s.withInputs is) hp hf]
    exact congrArg _ (if_neg h39)
  · rw [shiftIn_push (s := s.withInputs is) (congrArg (·.toNat % 8) h39) hf]
    exact congrArg _ (if_pos h39)

theorem exec_withInputs {i : Instr} {s u : State} (h : exec i s = .next u) {is : List Inputs}
    (hn : (s.withInputs is).now = s.now) : exec i (s.withInputs is) = .next (u.withInputs is) := by
  cases i
  case start =>
    cases h
    simp only [exec, execStart, State.reqTake, hn]; rfl
  case sample =>
    show shiftIn (s.withInputs is).now.lineI _ = _
    rw [hn]
    exact shiftIn_withInputs h is
  case errFill => exact shiftIn_withInputs h is
  case pop =>
    cases h
    exact congrArg _ (fifoPop_withInputs s is)
  all_goals cases h; rfl

theorem portDone_withInputs {s : State} {is : List Inputs} (hn : (s.withInputs is).now = s.now) :
    portDone (s.withInputs is) = (portDone s).withInputs is := by
  have hv : outValid (s.withInputs is) = outValid s := rfl
  unfold portDone
  rw [hn, hv]
  split
  · exact fifoPop_withInputs s is
  · rfl

/-- A tick reads of the coming inputs only its own. -/
theorem step_withInputs {s t : State} (h : step s = .next t) {is : List Inputs}
    (hn : (s.withInputs is).now = s.now) : step (s.withInputs is) = .next (t.withInputs is.tail) := by
  by_cases hr : s.now.rst = true
  · rw [step_of_rst hr] at h; cases h
    exact step_of_rst (by rw [hn, hr])
  · have hr : s.now.rst = false := by simpa using hr
    obtain ⟨u, hu, rfl⟩ := step_eq_next h hr
    have hacc : acc (s.withInputs is) = acc s := by unfold acc; rw [hn]; rfl
    have hhit : hit (s.withInputs is) = hit s := by unfold hit; rw [hn]; rfl
    have hport : ((portDone s).withInputs is).now = (portDone s).now := by
      rw [← portDone_withInputs hn, portDone_now, portDone_now, hn]
    rw [step_of_not_rst (by rw [hn, hr]), hacc, hhit, portDone_withInputs hn]
    show andThen (exec (opOf s.state (acc s) (hit s) (tc s)) _) _ = _
    rw [exec_withInputs hu hport]; rfl

/-- Running the block under a script is running it on the list of the script's ports. -/
theorem Bench.run_eq_after_denote (n : Nat) {b c : Bench} (hi : b.block.inputs = []) (h : Bench.run n b = .next c) :
    after n (b.block.withInputs (Bench.denote n b)) = .next c.block := by
  induction n generalizing b with
  | zero =>
    cases h
    exact congrArg Host.Outcome.next (State.withInputs_of_inputs_eq hi)
  | succ n ih =>
    cases htick : b.tick with
    | next b' =>
      rw [Bench.run_succ_of_tick htick] at h
      have hstep := Bench.tick_eq_next htick
      have hi' : b'.block.inputs = [] := by rw [(step_inputs_tick hstep).1, State.withNow_inputs, hi]; rfl
      rw [Bench.denote_succ_of_tick htick]
      have hstep' := step_withInputs hstep (is := b.ports :: Bench.denote n b') rfl
      exact (after_succ_of_step hstep' n).trans (ih hi' h)
    | fault r | refused r => simp [Bench.run, htick] at h

/-- Settles O47: a run from the start stands at each tick of the script, where its ports are those of the script's
lines; and a tick under the script is a tick on the head of the list of its ports. -/
theorem scriptRunsAsItsInputs : Obligations.ScriptRunsAsItsInputs := by
  refine ⟨fun sc t hwf => ?_, fun n b c hi h => Bench.run_eq_after_denote n hi h⟩
  obtain ⟨b, hrun, hb, hports⟩ := (Bench.start_standsAt hwf).run_next t
  rw [Nat.zero_add, Nat.zero_add] at hb
  exact ⟨b, b.ports, hrun, hports, hb.ports hwf⟩

/-! ## Macros -/

/-- Two scripts give the same ports under the configuration `k`, whatever the requests left and the block. -/
def SamePorts (k : Config) (sc sc' : Script) : Prop :=
  ∀ (reqs : List (Word × Nat)) (s : State), s.cfg = k → Bench.ports ⟨sc, reqs, s⟩ = Bench.ports ⟨sc', reqs, s⟩

theorem samePorts_of_lines {k : Config} {sc sc' : Script} (hrst : ∀ t, scriptRst sc t = scriptRst sc' t)
    (hout : ∀ t, scriptOutReady sc t = scriptOutReady sc' t)
    (hruns : scriptRuns k.settleTicks.toNat sc = scriptRuns k.settleTicks.toNat sc') : SamePorts k sc sc' := by
  rintro reqs s rfl
  simp only [Bench.ports, Bench.request, State.settleLoad, hrst, hout, hruns]

/-- Scripts that give the same ports denote the same. -/
theorem SamePorts.denote_eq {k : Config} {sc sc' : Script} (h : SamePorts k sc sc') (n : Nat)
    (reqs : List (Word × Nat)) {s : State} (hs : s.cfg = k) :
    Bench.denote n ⟨sc, reqs, s⟩ = Bench.denote n ⟨sc', reqs, s⟩ := by
  induction n generalizing reqs s with
  | zero => rfl
  | succ n ih =>
    have hports := h reqs s hs
    simp only [Bench.denote, Bench.tick, Bench.takes, ← hports]
    cases hstep : step (s.withNow (Bench.ports ⟨sc, reqs, s⟩)) with
    | next t => exact congrArg _ (ih _ ((step_cfg hstep).trans hs))
    | fault r | refused r => rfl

section
variable (before after' : Script) (items items' : List LineItem)

/-- The configuration of a script does not depend on the items of its LINE line. -/
theorem scriptConfig_line :
    scriptConfig (before ++ .line items :: after') = scriptConfig (before ++ .line items' :: after') := by
  cases before with
  | nil => rfl
  | cons a rest => cases a <;> rfl

/-- The requests of a script do not depend on the items of its LINE line. -/
theorem scriptReqs_line :
    scriptReqs (before ++ .line items :: after') = scriptReqs (before ++ .line items' :: after') := by
  simp [scriptReqs]

/-- A script denotes the same with another LINE line of the same runs. -/
theorem denote_line_congr
    (h : let S := (scriptConfig (before ++ .line items :: after')).settleTicks.toNat
      items.flatMap (itemRuns S) = items'.flatMap (itemRuns S)) (n : Nat) :
    Bench.denote n (Bench.start (before ++ .line items :: after')) =
      Bench.denote n (Bench.start (before ++ .line items' :: after')) := by
  have hports : SamePorts (scriptConfig (before ++ .line items :: after')) (before ++ .line items :: after')
      (before ++ .line items' :: after') :=
    samePorts_of_lines (by simp [scriptRst]) (by simp [scriptOutReady]) (by
      simp only [scriptRuns, List.flatMap_append, List.flatMap_cons, h])
  unfold Bench.start
  rw [← scriptReqs_line before after' items items', ← scriptConfig_line before after' items items']
  exact hports.denote_eq n _ rfl

end

/-- Settles O52: an item and its expansion have the same runs. -/
theorem macrosDenoteTheirExpansions : Obligations.MacrosDenoteTheirExpansions := by
  intro before after' pre post m n
  refine denote_line_congr before after' _ _ ?_ n
  simp only [List.flatMap_append, List.flatMap_cons, ← itemRuns_expansion, List.append_assoc]

end Sys2Proof.Machine
end

section
/-! The statements on transaction control (40_transaction_control.md): the operations of Idle and Trigger, the length of
the low pulse, and the invariant of every tick. -/

namespace Sys2Proof.Machine

/-! ## When an operation of Idle or Trigger is selected -/

section
variable {c : Ctrl} {a h t : Bool}

theorem opOf_eq_idleWait_iff : opOf c a h t = .idleWait ↔ c = .idle ∧ a = false := by
  cases c
  case idle => cases a <;> simp [opOf]
  all_goals grind [opOf]

theorem opOf_eq_start_iff : opOf c a h t = .start ↔ c = .idle ∧ a = true := by
  cases c
  case idle => cases a <;> simp [opOf]
  all_goals grind [opOf]

theorem opOf_eq_trigHold_iff : opOf c a h t = .trigHold ↔ c = .trigger ∧ t = false := by
  cases c
  case trigger => cases t <;> simp [opOf]
  all_goals grind [opOf]

theorem opOf_eq_trigRelease_iff : opOf c a h t = .trigRelease ↔ c = .trigger ∧ t = true := by
  cases c
  case trigger => cases t <;> simp [opOf]
  all_goals grind [opOf]

end

section
variable {s : State}

theorem fsmOp_eq_idleWait_iff : fsmOp s = some .idleWait ↔ s.state = .idle ∧ acc s = false := by
  rw [fsmOp_eq, Option.some_inj, opOf_eq_idleWait_iff]

theorem fsmOp_eq_start_iff : fsmOp s = some .start ↔ s.state = .idle ∧ acc s = true := by
  rw [fsmOp_eq, Option.some_inj, opOf_eq_start_iff]

theorem fsmOp_eq_trigHold_iff : fsmOp s = some .trigHold ↔ s.state = .trigger ∧ 1 < s.cnt.toNat := by
  rw [fsmOp_eq, Option.some_inj, opOf_eq_trigHold_iff, tc_false_iff]

theorem fsmOp_eq_trigRelease_iff : fsmOp s = some .trigRelease ↔ s.state = .trigger ∧ s.cnt.toNat ≤ 1 := by
  rw [fsmOp_eq, Option.some_inj, opOf_eq_trigRelease_iff, tc_iff]

theorem acc_false_iff : acc s = false ↔ ¬ (s.now.reqValid = true ∧ s.fifo = []) := by
  rw [← Bool.not_eq_true, acc_iff]

/-! ## A tick without POP, and what the outputs show in a known control state -/

theorem portDone_of_not_outReady (h : s.now.outReady = false) : portDone s = s := by simp [portDone, h]

theorem lineOe_of_ne_trigger (hs : s.state ≠ .trigger) : lineOe s = false := decide_eq_false hs

theorem lineOe_of_idle (hs : s.state = .idle) : lineOe s = false :=
  lineOe_of_ne_trigger (by rw [hs]; decide)

theorem busy_of_idle (hs : s.state = .idle) : busy s = false := by simp [busy, hs]

theorem reqReady_of_idle (hs : s.state = .idle) : reqReady s = decide (s.fifoCnt = 0) := by
  rw [reqReady, hs, Bool.beq_eq_decide_eq]; rfl

end

/-! ## The four operations -/

/-- Settles O9: the guard is `acc` read in Idle, and a tick that selects IDLE.WAIT is `step_idle`. -/
theorem idleWaitRests : Obligations.IdleWaitRests := by
  intro s
  refine ⟨by rw [fsmOp_eq_idleWait_iff, acc_false_iff], rfl,
    fun hs => ⟨lineOe_of_idle hs, busy_of_idle hs, reqReady_of_idle hs⟩, fun hop hr ho => ?_⟩
  obtain ⟨hs, ha⟩ := fsmOp_eq_idleWait_iff.mp hop
  rw [step_idle hr hs ha, portDone_of_not_outReady ho]

/-- Settles O10: before START the block is in Idle with an empty FIFO, after it in Trigger. -/
theorem startBeginsTheTransaction : Obligations.StartBeginsTheTransaction := by
  intro s
  refine ⟨by rw [fsmOp_eq_start_iff, acc_iff], rfl, fun hop => ?_, fun t ht => ?_⟩
  · obtain ⟨hs, ha⟩ := fsmOp_eq_start_iff.mp hop
    have hf : s.fifo = [] := ((acc_iff s).mp ha).2
    exact ⟨lineOe_of_idle hs, (reqReady_iff s).mpr ⟨hs, by rw [hf]; rfl⟩, busy_of_idle hs⟩
  · cases ht
    exact ⟨rfl, rfl, rfl⟩

/-- Settles O11: both guards are `tc` read in Trigger, the one state in which the line is driven. -/
theorem triggerHoldsAndReleases : Obligations.TriggerHoldsAndReleases := by
  intro s
  refine ⟨fsmOp_eq_trigHold_iff, fsmOp_eq_trigRelease_iff, rfl, rfl, fun hs => ⟨(lineOe_iff s).mpr hs, rfl⟩, fun t ht => ?_⟩
  cases ht
  rfl

/-! ## The low pulse -/

/-- What a run leaves of a stretch without reset. -/
theorem noReset_after {m n : Nat} {s t : State} (h : NoReset (m + n) s) (hm : after m s = .next t) : NoReset n t := by
  induction m generalizing s with
  | zero => cases hm; simpa using h
  | succ m ih =>
    rw [after_succ] at hm
    obtain ⟨u, hu, hm⟩ := andThen_eq_next hm
    exact ih (noReset_step (by rwa [Nat.add_right_comm] at h) hu) hm

/-- No run changes the configuration. -/
theorem after_cfg {n : Nat} {s t : State} (h : after n s = .next t) : t.cfg = s.cfg := by
  induction n generalizing s with
  | zero => cases h; rfl
  | succ n ih =>
    rw [after_succ] at h
    obtain ⟨u, hu, h⟩ := andThen_eq_next h
    rw [ih h, step_cfg hu]

/-- Trigger lasts while the counter runs down to its last tick: `k` ticks on, `cnt` has gone down by `k`. -/
theorem trigger_counts_down {k : Nat} {s : State} (hs : s.state = .trigger) (hk : k < max s.cnt.toNat 1)
    (hn : NoReset k s) : AfterHolds k s fun t => t.state = .trigger ∧ t.cnt.toNat = s.cnt.toNat - k := by
  induction k generalizing s with
  | zero => exact afterHolds_zero.mpr ⟨hs, rfl⟩
  | succ k ih =>
    have hc : 1 < s.cnt.toNat := by omega
    have hstep := step_trigHold (noReset_now hn) hs hc
    have hcnt : (portDone s).countDown.advance.cnt.toNat = s.cnt.toNat - 1 := by simpa using cnt_pred_toNat hc
    rw [afterHolds_succ_of_step hstep]
    obtain ⟨t, ht, htr, htc⟩ := ih (s := (portDone s).countDown.advance) (by simpa using hs) (by omega)
      (noReset_step hn hstep)
    exact ⟨t, ht, htr, by omega⟩

/-- From Trigger with counter `cnt` the wait for the line's rise begins after `max(cnt, 1)` ticks. -/
theorem trigger_releases {s : State} (hs : s.state = .trigger) (hn : NoReset (max s.cnt.toNat 1) s) :
    AfterHolds (max s.cnt.toNat 1) s fun t => t.state = .awaitRise1 ∧ t.cnt = s.cfg.waitBudget := by
  obtain ⟨k, hk⟩ : ∃ k, max s.cnt.toNat 1 = k + 1 := ⟨max s.cnt.toNat 1 - 1, by omega⟩
  rw [hk] at hn ⊢
  obtain ⟨t, ht, htr, htc⟩ := trigger_counts_down hs (by omega) (noReset_mono hn k.le_succ)
  have hstep := step_trigRelease (noReset_now (noReset_after hn ht)) htr (by omega)
  exact afterHolds_add ht ((afterHolds_succ_of_step hstep).mpr (afterHolds_zero.mpr ⟨rfl, by simp [after_cfg ht]⟩))

/-- START enters Trigger with the request word in the counter, from which the ticks of the low pulse count. -/
theorem Starts.enters_trigger {s : State} (h : Starts s) :
    ∃ t, step s = .next t ∧ t.state = .trigger ∧ holdTicks s = max t.cnt.toNat 1 ∧ t.cfg = s.cfg := by
  obtain ⟨hr, hs, hv, hf⟩ := h
  exact ⟨_, step_start hr hs ((acc_iff s).mpr ⟨hv, hf⟩), rfl, rfl, rfl⟩

/-- Settles O34: START loads the counter with the request word, Trigger counts it down to 1, and TRIG.RELEASE ends it. -/
theorem lowPulseLastsTheRequestedTicks : Obligations.LowPulseLastsTheRequestedTicks := by
  intro s hstarts hn
  obtain ⟨t, hstep, htr, hN, hcfg⟩ := hstarts.enters_trigger
  have hnt : NoReset (holdTicks s) t := noReset_step hn hstep
  rw [hN] at hnt ⊢
  obtain ⟨-, hs, -, -⟩ := hstarts
  refine ⟨lineOe_of_idle hs, fun k h1 hk => ?_, ?_⟩
  · obtain ⟨j, rfl⟩ : ∃ j, k = j + 1 := ⟨k - 1, by omega⟩
    rw [afterHolds_succ_of_step hstep]
    obtain ⟨u, hu, hus, -⟩ := trigger_counts_down htr hk (noReset_mono hnt (by omega))
    exact ⟨u, hu, hus, (lineOe_iff u).mpr hus, rfl⟩
  · rw [afterHolds_succ_of_step hstep, ← hcfg]
    obtain ⟨u, hu, hus, huc⟩ := trigger_releases htr hnt
    exact ⟨u, hu, hus, huc, lineOe_of_ne_trigger (by rw [hus]; decide)⟩

/-! ## The invariant of a tick -/

/-- Settles O29: a push always finds room (`Inv.step_next`), and every effect of a tick keeps the invariant
(`inv_step`). -/
theorem everyTickKeepsTheInvariant : Obligations.EveryTickKeepsTheInvariant := fun _ hi =>
  let ⟨t, ht⟩ := hi.step_next
  ⟨t, ht, inv_step hi ht⟩

end Sys2Proof.Machine
end

section
/-! The statements on the four bounded waits (41_bounded_waits.md): what selects HIT, POLL and TIMEOUT in each wait, what
they write, and how long a wait lasts. -/

namespace Sys2Proof.Machine

/-! ## When an operation of a wait is selected -/

/-- The control state in the row of an FSM operation, bits 5 to 3 of its value (30_encoding.md R64, R66). -/
def rowState (i : Instr) : Ctrl := Ctrl.ofCode ((BitVec.ofNat 6 i.row.value).extractLsb' 3 3)

theorem rowState_opOf (c : Ctrl) (a h t : Bool) : rowState (opOf c a h t) = c := by
  cases c <;> cases a <;> cases h <;> cases t <;> rfl

/-- Within a wait the operation tells `hit`, and on a miss `tc`. -/
theorem opOf_wait_inj {w : Ctrl} (hw : isWait w = true) {a h t a' h' t' : Bool} :
    opOf w a h t = opOf w a' h' t' ↔ h = h' ∧ (h' = false → t = t') := by
  cases w
  case awaitRise1 | awaitFall | awaitRise2 | bitWait => revert a h t a' h' t'; decide
  all_goals cases hw

/-- An operation of a wait is selected in no other control state, and there by `hit` and on a miss by `tc`. -/
theorem opOf_eq_wait_iff {c w : Ctrl} (hw : isWait w = true) {a h t a' h' t' : Bool} :
    opOf c a h t = opOf w a' h' t' ↔ c = w ∧ h = h' ∧ (h' = false → t = t') := by
  constructor
  · intro e
    obtain rfl : c = w := by simpa only [rowState_opOf] using congrArg rowState e
    exact ⟨rfl, (opOf_wait_inj hw).mp e⟩
  · rintro ⟨rfl, hbits⟩
    exact (opOf_wait_inj hw).mpr hbits

/-- The HIT of a wait, read off the operation table. -/
def hitOp (w : Ctrl) : Instr := opOf w false true false

/-- The POLL of a wait: a miss with polls left. -/
def pollOp (w : Ctrl) : Instr := opOf w false false false

/-- The TIMEOUT of a wait: a miss on the last poll. -/
def timeoutOp (w : Ctrl) : Instr := opOf w false false true

section
variable {s : State} {w : Ctrl}

theorem hit_false_iff_not : hit s = false ↔ s.now.lineI = !tgt s.state := by
  rw [hit_false_iff, Bool.eq_not]

/-- R93, R96, R99, R102: whatever `cnt` is (R105). -/
theorem fsmOp_eq_hitOp_iff (hw : isWait w = true) :
    fsmOp s = some (hitOp w) ↔ s.state = w ∧ s.now.lineI = tgt w := by
  rw [fsmOp_eq, Option.some_inj, hitOp, opOf_eq_wait_iff hw, hit_iff]
  exact and_congr_right fun hs => by simp [hs]

/-- R94, R97, R100, R103. -/
theorem fsmOp_eq_pollOp_iff (hw : isWait w = true) :
    fsmOp s = some (pollOp w) ↔ s.state = w ∧ s.now.lineI = !tgt w ∧ 1 < s.cnt.toNat := by
  rw [fsmOp_eq, Option.some_inj, pollOp, opOf_eq_wait_iff hw, hit_false_iff_not, tc_false_iff]
  exact and_congr_right fun hs => by simp [hs]

/-- R95, R98, R101, R104. -/
theorem fsmOp_eq_timeoutOp_iff (hw : isWait w = true) :
    fsmOp s = some (timeoutOp w) ↔ s.state = w ∧ s.now.lineI = !tgt w ∧ s.cnt.toNat ≤ 1 := by
  rw [fsmOp_eq, Option.some_inj, timeoutOp, opOf_eq_wait_iff hw, hit_false_iff_not, tc_iff]
  exact and_congr_right fun hs => by simp [hs]

end

/-! ## The twelve operations -/

/-- Settles O12: the guard of a HIT at each wait; its writes are those of its meaning. -/
theorem hitsEndTheWaits : Obligations.HitsEndTheWaits := fun _ =>
  ⟨fsmOp_eq_hitOp_iff (w := .awaitRise1) rfl, fsmOp_eq_hitOp_iff (w := .awaitFall) rfl,
    fsmOp_eq_hitOp_iff (w := .awaitRise2) rfl, fsmOp_eq_hitOp_iff (w := .bitWait) rfl, rfl, rfl, rfl, rfl⟩

/-- Settles O13: the guard of a POLL at each wait, under which the one decrement does not wrap. -/
theorem pollsCountDown : Obligations.PollsCountDown := fun _ =>
  ⟨fsmOp_eq_pollOp_iff (w := .awaitRise1) rfl, fsmOp_eq_pollOp_iff (w := .awaitFall) rfl,
    fsmOp_eq_pollOp_iff (w := .awaitRise2) rfl, fsmOp_eq_pollOp_iff (w := .bitWait) rfl, rfl, rfl, rfl, rfl,
    cnt_pred_toNat⟩

/-- Settles O14: the guard of a TIMEOUT at each wait; its writes are those of the one exception entry. -/
theorem timeoutsEnterError : Obligations.TimeoutsEnterError := fun _ =>
  ⟨fsmOp_eq_timeoutOp_iff (w := .awaitRise1) rfl, fsmOp_eq_timeoutOp_iff (w := .awaitFall) rfl,
    fsmOp_eq_timeoutOp_iff (w := .awaitRise2) rfl, fsmOp_eq_timeoutOp_iff (w := .bitWait) rfl, rfl, rfl, rfl, rfl⟩

/-! ## How long a wait lasts -/

/-- The ports of a tick within a run are those its first state lists for it. -/
theorem after_now {n : Nat} {s t : State} (h : after n s = .next t) : t.now = s.inputAt n := by
  induction n generalizing s with
  | zero => cases h; rfl
  | succ n ih =>
    rw [after_succ] at h
    obtain ⟨u, hu, h⟩ := andThen_eq_next h
    rw [ih h, step_inputAt hu]

/-- One more tick at the end of a run. -/
theorem afterHolds_succ_of_after {n : Nat} {s t u : State} {P : State → Prop} (h : after n s = .next t)
    (hs : step t = .next u) (hp : P u) : AfterHolds (n + 1) s P :=
  afterHolds_add h ((afterHolds_succ_of_step hs).mpr (afterHolds_zero.mpr hp))

theorem AfterHolds.imp {n : Nat} {s : State} {P Q : State → Prop} (h : AfterHolds n s P) (hpq : ∀ u, P u → Q u) :
    AfterHolds n s Q :=
  let ⟨u, hu, hp⟩ := h
  ⟨u, hu, hpq u hp⟩

/-- `t` goes on with the wait of `s` after `k` misses: only `cnt` has gone down. -/
structure WaitsOn (k : Nat) (s t : State) : Prop where
  state : t.state = s.state
  cnt : t.cnt.toNat = s.cnt.toNat - k
  bitcnt : t.bitcnt = s.bitcnt
  shreg : t.shreg = s.shreg

section
variable {s : State} (hw : isWait s.state = true)
include hw

/-- While the polls miss and remain, a wait goes on. -/
theorem wait_goes_on {k : Nat} (hk : k < s.cnt.toNat) (hn : NoReset k s)
    (hm : ∀ j, j < k → s.lineAt j ≠ tgt s.state) : AfterHolds k s (WaitsOn k s) := by
  induction k with
  | zero => exact afterHolds_zero.mpr ⟨rfl, rfl, rfl, rfl⟩
  | succ k ih =>
    obtain ⟨t, ht, hstate, hcnt, hbitcnt, hshreg⟩ :=
      ih (by omega) (noReset_mono hn k.le_succ) fun j hj => hm j (by omega)
    have hc : 1 < t.cnt.toNat := by omega
    have hmiss : t.now.lineI ≠ tgt t.state := by rw [after_now ht, hstate]; exact hm k k.lt_succ_self
    have hstep := step_poll (noReset_now (noReset_after hn ht)) (hstate ▸ hw) hmiss hc
    have hpred : (portDone t).countDown.advance.cnt.toNat = t.cnt.toNat - 1 := by simpa using cnt_pred_toNat hc
    exact afterHolds_succ_of_after ht hstep
      ⟨by simp [hstate], by omega, by simp [hbitcnt], by simp [hshreg]⟩

/-- A wait whose first hit is at tick `h`, within its counter, goes on to the next state at `h + 1`. -/
theorem wait_ends_with_hit {h : Nat} (hh : h < s.cnt.toNat) (hn : NoReset (h + 1) s)
    (hm : ∀ j, j < h → s.lineAt j ≠ tgt s.state) (hl : s.lineAt h = tgt s.state) :
    AfterHolds (h + 1) s fun u => regs u = (hitNext s.state, hitLoad s.cfg s.state, s.bitcnt, s.shreg) := by
  obtain ⟨t, ht, hstate, -, hbitcnt, hshreg⟩ := wait_goes_on hw hh (noReset_mono hn h.le_succ) hm
  have hhit : t.now.lineI = tgt t.state := by rw [after_now ht, hstate]; exact hl
  have hstep := step_hit (noReset_now (noReset_after hn ht)) (hstate ▸ hw) hhit
  exact afterHolds_succ_of_after ht hstep (by simp [regs, hstate, after_cfg ht, hbitcnt, hshreg])

/-- A wait whose polls all miss, as many as its counter says, ends in Error. -/
theorem wait_times_out (hpos : 0 < s.cnt.toNat) (hn : NoReset s.cnt.toNat s)
    (hm : ∀ j, j < s.cnt.toNat → s.lineAt j ≠ tgt s.state) :
    AfterHolds s.cnt.toNat s fun u => regs u = (.error, 0, s.bitcnt, s.shreg) := by
  obtain ⟨k, hk⟩ : ∃ k, s.cnt.toNat = k + 1 := ⟨s.cnt.toNat - 1, by omega⟩
  rw [hk] at hn ⊢
  obtain ⟨t, ht, hstate, hcnt, hbitcnt, hshreg⟩ :=
    wait_goes_on hw (by omega) (noReset_mono hn k.le_succ) fun j hj => hm j (by omega)
  have hmiss : t.now.lineI ≠ tgt t.state := by rw [after_now ht, hstate]; exact hm k (by omega)
  have hstep := step_timeout (noReset_now (noReset_after hn ht)) (hstate ▸ hw) hmiss (by omega)
  exact afterHolds_succ_of_after ht hstep (by simp [regs, hbitcnt, hshreg])

end

/-- Settles O35: the counter entered with `B` counts the misses down, and the poll that ends the wait is HIT, or TIMEOUT
on the counter's last tick. -/
theorem waitEndsWithinTheBudget : Obligations.WaitEndsWithinTheBudget := by
  intro s hw hB hwf
  rw [← hB]
  refine ⟨fun h hh hn hm hl => ⟨fun j hj => ?_, ?_⟩, fun hn hm => ⟨fun j hj => ?_, ?_⟩⟩
  · exact (wait_goes_on hw (by omega) (noReset_mono hn (by omega)) fun i hi => hm i (by omega)).imp
      fun u hu => ⟨hu.state, hu.cnt⟩
  · refine (wait_ends_with_hit hw hh hn hm hl).imp fun u hu => ?_
    obtain ⟨hstate, hcnt, hbitcnt, hshreg⟩ := regs_eq_iff.mp hu
    rw [hstate, hcnt, hB]
    refine ⟨hbitcnt, hshreg, ?_, ?_, ?_, ?_⟩ <;> (intro hs; rw [hs]; exact ⟨rfl, rfl⟩)
  · exact (wait_goes_on hw hj (noReset_mono hn (by omega)) fun i hi => hm i (by omega)).imp
      fun u hu => ⟨hu.state, hu.cnt⟩
  · have hpos : 0 < s.cnt.toNat := hB ▸ (loads_pos_of_wf hwf).1
    exact (wait_times_out hw hpos hn hm).imp fun u hu => regs_eq_iff.mp hu

end Sys2Proof.Machine
end

section
/-! The statements on bit decode (42_bit_decode.md): the settle delay, the sample, and that every sampled bit is the level
of the line `S` ticks after its BIT.HIT. -/

namespace Sys2Proof.Machine

/-! ## When an operation of Settle or Error is selected -/

section
variable {c : Ctrl} {a h t : Bool}

/-- An operation of Settle is selected in no other control state, and there by `tc`. -/
theorem opOf_eq_settle_iff {a' h' t' : Bool} : opOf c a h t = opOf .settle a' h' t' ↔ c = .settle ∧ t = t' := by
  constructor
  · intro e
    obtain rfl : c = .settle := by simpa only [rowState_opOf] using congrArg rowState e
    refine ⟨rfl, ?_⟩
    cases t <;> cases t'
    case false.true | true.false => cases e
    all_goals rfl
  · rintro ⟨rfl, rfl⟩; rfl

end

section
variable {s : State}

/-- R111. -/
theorem fsmOp_eq_settleHold_iff : fsmOp s = some .settleHold ↔ s.state = .settle ∧ 1 < s.cnt.toNat := by
  rw [fsmOp_eq, Option.some_inj, ← tc_false_iff]
  exact opOf_eq_settle_iff (a' := false) (h' := false) (t' := false)

/-- R113. -/
theorem fsmOp_eq_sample_iff : fsmOp s = some .sample ↔ s.state = .settle ∧ s.cnt.toNat ≤ 1 := by
  rw [fsmOp_eq, Option.some_inj, ← tc_iff]
  exact opOf_eq_settle_iff (a' := false) (h' := false) (t' := true)

/-- R121: in Error nothing else runs, whatever the condition bits are. -/
theorem fsmOp_of_error (hs : s.state = .error) : fsmOp s = some .errFill := by
  rw [fsmOp_eq, hs]; rfl

/-- R102. -/
theorem fsmOp_eq_bitHit_iff : fsmOp s = some .bitHit ↔ s.state = .bitWait ∧ s.now.lineI = false :=
  fsmOp_eq_hitOp_iff (w := .bitWait) rfl

end

/-! ## The two operations -/

/-- Settles O15: the guard is `tc` read in Settle, whatever the line is; a counter of at most 1 is on its last tick. -/
theorem settleHoldCountsDown : Obligations.SettleHoldCountsDown := by
  intro s
  refine ⟨fsmOp_eq_settleHold_iff, rfl, fun hS hc hop => ?_⟩
  have h1 : 1 < s.cnt.toNat := (fsmOp_eq_settleHold_iff.mp hop).2
  rw [hS] at hc
  exact absurd hc (not_le.mpr h1)

/-- R112's expression on naturals is the shifted byte. -/
theorem ofNat_shift_eq_shifted (v : Byte) (b : Bool) :
    BitVec.ofNat 8 (((v.toNat <<< 1) ||| b.toNat) &&& 0xFF) = shifted v b := by
  revert v b; decide

/-- Settles O16: SAMPLE is SHIFTIN of the line after the writes that re-arm the fall wait, and SHIFTIN has a lemma for each
of its cases. -/
theorem sampleShiftsTheLineIn : Obligations.SampleShiftsTheLineIn := by
  intro s
  have hexec : exec .sample s = shiftIn s.now.lineI ((s.goto .bitWait).setCnt s.cfg.waitBudget) := rfl
  simp only [ofNat_shift_eq_shifted, hexec]
  refine ⟨fsmOp_eq_sample_iff, fun hp => ?_, fun hp h39 hf => ?_, fun h39 hf => ?_⟩
  · exact shiftIn_inside (s := (s.goto .bitWait).setCnt s.cfg.waitBudget) hp
  · rw [shiftIn_push (by exact hp) (by exact hf), if_neg (by exact h39)]; rfl
  · have hp : s.bitcnt.toNat % 8 = 7 := by rw [h39]; rfl
    rw [shiftIn_push (by exact hp) (by exact hf), if_pos (by exact h39)]; rfl

/-! ## What enters each phase -/

/-- The operation that shifts the bit in: SAMPLE goes on in BitWait, ERR.FILL in Error. -/
theorem ShiftsIn.fsmOp {s : State} {b : Bool} {c : Ctrl} {n : Word} (h : ShiftsIn s b c n) :
    (s.state = .settle ∧ fsmOp s = some .sample ∧ c = .bitWait) ∨
    (s.state = .error ∧ fsmOp s = some .errFill ∧ c = .error) := by
  rcases h with ⟨hs, hc, -, rfl, -⟩ | ⟨hs, -, rfl, -⟩
  · exact .inl ⟨hs, fsmOp_eq_sample_iff.mpr ⟨hs, hc⟩, rfl⟩
  · exact .inr ⟨hs, fsmOp_of_error hs, rfl⟩

/-- What a tick from `s` to `t` does to the control state, with the operation that does it. -/
inductive PhaseStep (s t : State) : Prop where
  /-- IDLE.WAIT, the HOLDs, the POLLs, ERR.FILL -/
  | stays (ht : t.state = s.state)
  | start (hs : s.state = .idle) (hop : fsmOp s = some .start) (ht : t.state = .trigger)
  | release (hs : s.state = .trigger) (ht : t.state = .awaitRise1)
  | hit (hs : isWait s.state = true) (hop : fsmOp s = some (hitOp s.state)) (ht : t.state = hitNext s.state)
  | timeout (hs : isWait s.state = true) (hop : fsmOp s = some (timeoutOp s.state)) (ht : t.state = .error)
  | sample (hs : s.state = .settle) (hop : fsmOp s = some .sample) (ht : t.state = .bitWait)
  /-- SAMPLE or ERR.FILL of bit 39 -/
  | last (h39 : s.bitcnt = 39) (hop : fsmOp s = some .sample ∨ fsmOp s = some .errFill) (ht : t.state = .idle)

theorem TickEffect.phaseStep {s t : State} (e : TickEffect s t) : PhaseStep s t := by
  cases e with
  | rest _ _ hr | down _ _ hr => exact .stays (regs_eq_iff.mp hr).1
  | start hs ha hr => exact .start hs (fsmOp_start hs ha) (regs_eq_iff.mp hr).1
  | release hs _ hr => exact .release hs (regs_eq_iff.mp hr).1
  | hit hs hl hr => exact .hit hs ((fsmOp_eq_hitOp_iff hs).mpr ⟨rfl, hl⟩) (regs_eq_iff.mp hr).1
  | timeout hs hl hc hr =>
    exact .timeout hs ((fsmOp_eq_timeoutOp_iff hs).mpr ⟨rfl, Bool.eq_not.mpr hl, hc⟩) (regs_eq_iff.mp hr).1
  | inside _ _ _ hs _ hr | push _ _ _ hs _ _ hr =>
    have ht := (regs_eq_iff.mp hr).1
    rcases hs.fsmOp with ⟨hset, hop, rfl⟩ | ⟨herr, -, rfl⟩
    · exact .sample hset hop ht
    · exact .stays (ht.trans herr.symm)
  | last _ _ _ hs h39 hr =>
    exact .last h39 (hs.fsmOp.imp (fun h => h.2.1) fun h => h.2.1) (regs_eq_iff.mp hr).1

/-- A hit leads to none of the other phases. -/
theorem hitNext_ne {c : Ctrl} (h : isWait c = true) :
    hitNext c ≠ .trigger ∧ hitNext c ≠ .error ∧ hitNext c ≠ .idle := by
  cases c
  case awaitRise1 | awaitFall | awaitRise2 | bitWait => decide
  all_goals cases h

theorem timeoutOp_cases {c : Ctrl} (h : isWait c = true) :
    timeoutOp c = .rise1Timeout ∨ timeoutOp c = .fallTimeout ∨ timeoutOp c = .rise2Timeout ∨
      timeoutOp c = .bitTimeout := by
  cases c
  case awaitRise1 | awaitFall | awaitRise2 | bitWait => decide
  all_goals cases h

section
variable {s t : State}

theorem PhaseStep.to_trigger (h : PhaseStep s t) (ht : t.state = .trigger) :
    s.state = .trigger ∨ fsmOp s = some .start := by
  cases h with
  | stays h => exact .inl (h.symm.trans ht)
  | start _ hop => exact .inr hop
  | hit hs _ h => exact absurd (h.symm.trans ht) (hitNext_ne hs).1
  | release _ h | timeout _ _ h | sample _ _ h | last _ _ h => simp [h] at ht

theorem PhaseStep.to_settle (h : PhaseStep s t) (ht : t.state = .settle) :
    s.state = .settle ∨ fsmOp s = some .bitHit := by
  cases h with
  | stays h => exact .inl (h.symm.trans ht)
  | hit hs hop h =>
    rcases hit_leads_to hs s.cfg with ⟨hw, -⟩ | ⟨hb, -⟩
    · rw [← h, ht] at hw; cases hw
    · rw [hb] at hop; exact .inr hop
  | start _ _ h | release _ h | timeout _ _ h | sample _ _ h | last _ _ h => simp [h] at ht

theorem PhaseStep.to_error (h : PhaseStep s t) (ht : t.state = .error) :
    s.state = .error ∨ fsmOp s = some .rise1Timeout ∨ fsmOp s = some .fallTimeout ∨
      fsmOp s = some .rise2Timeout ∨ fsmOp s = some .bitTimeout := by
  cases h with
  | stays h => exact .inl (h.symm.trans ht)
  | timeout hs hop =>
    simp only [hop, Option.some_inj]
    exact .inr (timeoutOp_cases hs)
  | hit hs _ h => exact absurd (h.symm.trans ht) (hitNext_ne hs).2.1
  | start _ _ h | release _ h | sample _ _ h | last _ _ h => simp [h] at ht

theorem PhaseStep.to_idle (h : PhaseStep s t) (ht : t.state = .idle) :
    s.state = .idle ∨ s.bitcnt = 39 ∧ (fsmOp s = some .sample ∨ fsmOp s = some .errFill) := by
  cases h with
  | stays h => exact .inl (h.symm.trans ht)
  | last h39 hop => exact .inr ⟨h39, hop⟩
  | hit hs _ h => exact absurd (h.symm.trans ht) (hitNext_ne hs).2.2
  | start _ _ h | release _ h | timeout _ _ h | sample _ _ h => simp [h] at ht

theorem PhaseStep.from_error (h : PhaseStep s t) (hs : s.state = .error) : t.state = .error ∨ t.state = .idle := by
  cases h with
  | stays h => exact .inl (h.trans hs)
  | timeout _ _ h => exact .inl h
  | last _ _ h => exact .inr h
  | hit hw => rw [hs] at hw; cases hw
  | start hs' | release hs' | sample hs' => rw [hs] at hs'; cases hs'

end

/-- Settles O28: each clause is read off what a tick does to the control state. -/
theorem phasesAreEnteredOnlyAsStated : Obligations.PhasesAreEnteredOnlyAsStated := fun _ _ hr h =>
  have p := (step_effect hr h).phaseStep
  ⟨p.to_trigger, p.to_settle, p.to_error, p.to_idle, p.from_error⟩

/-! ## The settle delay -/

/-- Every state of a run from a state with the invariant has it. -/
theorem inv_after {n : Nat} {s t : State} (hi : Inv s) (h : after n s = .next t) : Inv t := by
  induction n generalizing s with
  | zero => cases h; exact hi
  | succ n ih =>
    rw [after_succ] at h
    obtain ⟨u, hu, h⟩ := andThen_eq_next h
    exact ih (inv_step hi hu) h

/-- BIT.HIT enters Settle with `S` loaded and keeps the bits shifted in (R102, R110). -/
theorem step_bitHit {s : State} (h : Runs .bitHit s) :
    ∃ t, step s = .next t ∧ regs t = (.settle, s.cfg.settleTicks, s.bitcnt, s.shreg) := by
  obtain ⟨hr, hop⟩ := h
  obtain ⟨hs, hl⟩ := fsmOp_eq_bitHit_iff.mp hop
  exact ⟨_, step_hit hr (by rw [hs]; rfl) (by rw [hs]; exact hl), by simp [regs, hs, hitNext, hitLoad]⟩

/-- The settle delay goes on as a wait does, until the counter is at its last tick, whatever the line does (R111). -/
theorem settle_goes_on {k : Nat} {s : State} (hs : s.state = .settle) (hk : k < s.cnt.toNat) (hn : NoReset k s) :
    AfterHolds k s (WaitsOn k s) := by
  induction k with
  | zero => exact afterHolds_zero.mpr ⟨rfl, rfl, rfl, rfl⟩
  | succ k ih =>
    obtain ⟨t, ht, hstate, hcnt, hbitcnt, hshreg⟩ := ih (by omega) (noReset_mono hn k.le_succ)
    have hc : 1 < t.cnt.toNat := by omega
    have hstep := step_settleHold (noReset_now (noReset_after hn ht)) (hstate.trans hs) hc
    have hpred : (portDone t).countDown.advance.cnt.toNat = t.cnt.toNat - 1 := by simpa using cnt_pred_toNat hc
    exact afterHolds_succ_of_after ht hstep ⟨by simp [hstate], by omega, by simp [hbitcnt], by simp [hshreg]⟩

/-- From 1 to `S` ticks after BIT.HIT the block is in Settle, with `S` counted down from the first of them, and the bits
shifted in are kept. -/
theorem settles_after_bitHit {k : Nat} {s : State} (h : Runs .bitHit s) (h1 : 1 ≤ k)
    (hk : k ≤ s.cfg.settleTicks.toNat) (hn : NoReset k s) :
    AfterHolds k s fun u =>
      u.state = .settle ∧ u.cnt.toNat = s.cfg.settleTicks.toNat + 1 - k ∧ u.bitcnt = s.bitcnt ∧ u.shreg = s.shreg := by
  obtain ⟨j, rfl⟩ : ∃ j, k = j + 1 := ⟨k - 1, by omega⟩
  obtain ⟨t, hstep, hr⟩ := step_bitHit h
  obtain ⟨hs, hc, hb, hv⟩ := regs_eq_iff.mp hr
  rw [afterHolds_succ_of_step hstep]
  refine (settle_goes_on hs (by rw [hc]; omega) (noReset_step hn hstep)).imp fun u hu => ?_
  exact ⟨hu.state.trans hs, by rw [hu.cnt, hc]; omega, hu.bitcnt.trans hb, hu.shreg.trans hv⟩

/-- What a tick that executes SAMPLE leaves in the registers (R112, R113). -/
theorem sample_regs {s t : State} (h : Runs .sample s) (hstep : step s = .next t) :
    (s.bitcnt ≠ 39 → t.state = .bitWait ∧ t.cnt = s.cfg.waitBudget ∧ t.bitcnt = s.bitcnt + 1 ∧
      (s.bitcnt.toNat % 8 ≠ 7 → t.shreg = shifted s.shreg s.now.lineI)) ∧
    (s.bitcnt = 39 → t.state = .idle ∧ t.bitcnt = 0) := by
  obtain ⟨hr, hop⟩ := h
  obtain ⟨hs, hc⟩ := fsmOp_eq_sample_iff.mp hop
  rw [step_sample hr hs hc] at hstep
  obtain ⟨u, hu, hut⟩ := andThen_eq_next hstep
  cases hut
  rcases shiftIn_cases hu with ⟨hp, rfl⟩ | ⟨hp, h39, -, rfl⟩ | ⟨h39, -, rfl⟩
  · exact ⟨fun _ => ⟨rfl, rfl, by simp, fun _ => by simp⟩, fun h39 => absurd (by simp [h39]) hp⟩
  · exact ⟨fun _ => ⟨rfl, rfl, by simp, fun h7 => absurd (by simpa using hp) h7⟩,
      fun h => absurd (by simpa using h) h39⟩
  · exact ⟨fun h => absurd (by simpa using h39) h, fun _ => ⟨rfl, rfl⟩⟩

/-- SAMPLE executes `S` ticks after BIT.HIT, and reads the line of that tick (R114). -/
theorem samples_after_bitHit {s : State} (h : Runs .bitHit s) (hwf : s.cfg.wf = true)
    (hn : NoReset (s.cfg.settleTicks.toNat + 1) s) :
    AfterHolds s.cfg.settleTicks.toNat s fun u =>
      Runs .sample u ∧ u.now.lineI = s.lineAt s.cfg.settleTicks.toNat ∧ u.bitcnt = s.bitcnt ∧ u.shreg = s.shreg := by
  obtain ⟨u, hu, hs, hc, hb, hv⟩ :=
    settles_after_bitHit h (loads_pos_of_wf hwf).2 le_rfl (noReset_mono hn (Nat.le_succ _))
  exact ⟨u, hu, ⟨noReset_now (noReset_after hn hu), fsmOp_eq_sample_iff.mpr ⟨hs, by omega⟩⟩,
    congrArg Inputs.lineI (after_now hu), hb, hv⟩

/-- Settles O36: the counter loaded with `S` is counted down to its last tick, whose SAMPLE reads the line; with the
invariant its push finds room. -/
theorem sampleFallsSettleTicksAfterTheHit : Obligations.SampleFallsSettleTicksAfterTheHit := by
  intro s h hwf hn
  have hsample := samples_after_bitHit h hwf hn
  refine ⟨fun k h1 hk => ?_, hsample, fun hi => ?_⟩
  · obtain ⟨u, hu, hs, hc, -, -⟩ := settles_after_bitHit h h1 hk.le (noReset_mono hn (by omega))
    have hru : u.now.rst = false := by rw [after_now hu]; exact hn k (by omega)
    exact ⟨u, hu, ⟨hru, fsmOp_eq_settleHold_iff.mpr ⟨hs, by omega⟩⟩, lineOe_of_ne_trigger (by rw [hs]; decide)⟩
  · obtain ⟨u, hu, hop, hl, hb, hv⟩ := hsample
    obtain ⟨t, ht⟩ := (inv_after hi hu).step_next
    have hregs := sample_regs hop ht
    rw [hl, hb, hv, after_cfg hu] at hregs
    exact afterHolds_succ_of_after hu ht hregs

/-- Settles O37: the level sampled is that of the line at tick `S`, which the waveform gives. -/
theorem pulseWidthsAreClassified : Obligations.PulseWidthsAreClassified := by
  intro s L w h hwf hn hL hline
  refine (samples_after_bitHit h hwf hn).imp fun u ⟨hop, hl, _, _⟩ => ?_
  have hS : 1 ≤ s.cfg.settleTicks.toNat := (loads_pos_of_wf hwf).2
  have hread : u.now.lineI = true ↔ L ≤ s.cfg.settleTicks.toNat ∧ s.cfg.settleTicks.toNat < L + w := by
    rw [hl, hline _ le_rfl, decide_eq_true_iff]
  rw [← Bool.not_eq_true, hread]
  exact ⟨hop, by omega, fun _ => by omega, fun _ _ _ => ⟨fun _ => by omega, fun _ => by omega⟩⟩

/-! ## Every sample has its hit

One tick keeps the balance of what is sampled and what was promised: a sample is promised by its BIT.HIT, `S` ticks before,
and while Settle runs one promise is pending. -/

/-- What the tick samples: the part of `samples` that this tick gives. -/
def sampledNow (s : State) : List Bool := if s.now.rst = false ∧ fsmOp s = some .sample then [s.now.lineI] else []

/-- The ticks, counted from now, at which this tick executes BIT.HIT: the part of `bitHits` that this tick gives. -/
def hitsNow (s : State) : List Nat := if s.now.rst = false ∧ fsmOp s = some .bitHit then [0] else []

/-- The level of the line `S` ticks after tick `k`: what the BIT.HIT of tick `k` promises. -/
def promised (s : State) (k : Nat) : Bool := s.lineAt (k + s.cfg.settleTicks.toNat)

/-- The level that the settle delay of `s`, if one runs, will have sampled at its end: the line on the counter's last
tick. -/
def pending (s : State) : List Bool := if s.state = .settle then [s.lineAt (s.cnt.toNat - 1)] else []

section
variable {s t : State}

theorem samples_succ (h : step s = .next t) (n : Nat) : samples (n + 1) s = sampledNow s ++ samples n t := by
  rw [samples, h]; rfl

theorem bitHits_succ (h : step s = .next t) (n : Nat) : bitHits (n + 1) s = hitsNow s ++ (bitHits n t).map (· + 1) := by
  rw [bitHits, h]; rfl

theorem step_lineAt (h : step s = .next t) (k : Nat) : t.lineAt k = s.lineAt (k + 1) :=
  congrArg Inputs.lineI (step_inputAt h k)

theorem step_promised (h : step s = .next t) (k : Nat) : promised t k = promised s (k + 1) := by
  rw [promised, promised, step_cfg h, step_lineAt h, Nat.add_right_comm]

theorem promised_bitHits_succ (h : step s = .next t) (n : Nat) :
    (bitHits (n + 1) s).map (promised s) = (hitsNow s).map (promised s) ++ (bitHits n t).map (promised t) := by
  rw [bitHits_succ h, List.map_append, List.map_map]
  congr 1
  exact List.map_congr_left fun k _ => (step_promised h k).symm

theorem sampledNow_of_runs (h : Runs .sample s) : sampledNow s = [s.now.lineI] := if_pos h

theorem hitsNow_of_runs (h : Runs .bitHit s) : hitsNow s = [0] := if_pos h

theorem sampledNow_of_ne (h : fsmOp s ≠ some .sample) : sampledNow s = [] := if_neg fun hop => h hop.2

theorem hitsNow_of_ne (h : fsmOp s ≠ some .bitHit) : hitsNow s = [] := if_neg fun hop => h hop.2

theorem pending_of_ne (h : s.state ≠ .settle) : pending s = [] := if_neg h

theorem pending_of_settle (h : s.state = .settle) : pending s = [s.lineAt (s.cnt.toNat - 1)] := if_pos h

theorem fsmOp_ne_bitHit_of_settle (hs : s.state = .settle) : fsmOp s ≠ some .bitHit := fun hop => by
  rw [(fsmOp_eq_bitHit_iff.mp hop).1] at hs; cases hs

/-- On a tick of the settle delay the promise stays; on its last the promise is kept. -/
theorem balance_of_settle (hr : s.now.rst = false) (hs : s.state = .settle) (h : step s = .next t) :
    sampledNow s ++ pending t = pending s := by
  by_cases hc : 1 < s.cnt.toNat
  · have hno : fsmOp s ≠ some .sample := fun hop => by
      have := (fsmOp_eq_sample_iff.mp hop).2
      omega
    obtain ⟨ht, hcnt⟩ : t.state = .settle ∧ t.cnt = s.cnt - 1 := by
      rw [step_settleHold hr hs hc] at h; cases h
      exact ⟨by simpa using hs, by simp⟩
    have hpred : s.cnt.toNat - 1 - 1 + 1 = s.cnt.toNat - 1 := by omega
    rw [sampledNow_of_ne hno, List.nil_append, pending_of_settle ht, pending_of_settle hs, hcnt, cnt_pred_toNat hc,
      step_lineAt h, hpred]
  · have hop : fsmOp s = some .sample := fsmOp_eq_sample_iff.mpr ⟨hs, by omega⟩
    have ht : t.state ≠ .settle := by
      have hregs := sample_regs ⟨hr, hop⟩ h
      by_cases h39 : s.bitcnt = 39
      · rw [(hregs.2 h39).1]; decide
      · rw [(hregs.1 h39).1]; decide
    have h0 : s.cnt.toNat - 1 = 0 := by omega
    rw [pending_of_ne ht, pending_of_settle hs, h0, sampledNow_of_runs ⟨hr, hop⟩]
    rfl

/-- A BIT.HIT makes its promise. -/
theorem balance_of_bitHit (hop : Runs .bitHit s) (hwf : s.cfg.wf = true) (h : step s = .next t) :
    pending t = (hitsNow s).map (promised s) := by
  obtain ⟨t', h', hregs⟩ := step_bitHit hop
  obtain rfl : t = t' := by rw [h] at h'; cases h'; rfl
  obtain ⟨hs, hc, -, -⟩ := regs_eq_iff.mp hregs
  have hS : s.cfg.settleTicks.toNat - 1 + 1 = s.cfg.settleTicks.toNat := Nat.sub_add_cancel (loads_pos_of_wf hwf).2
  rw [pending_of_settle hs, hc, step_lineAt h, hS, hitsNow_of_runs hop, List.map_singleton, promised, Nat.zero_add]

/-- What a tick samples and leaves pending is what was pending and what it promises. -/
theorem balance_step (hr : s.now.rst = false) (hwf : s.cfg.wf = true) (h : step s = .next t) :
    sampledNow s ++ pending t = pending s ++ (hitsNow s).map (promised s) := by
  by_cases hs : s.state = .settle
  · rw [balance_of_settle hr hs h, hitsNow_of_ne (fsmOp_ne_bitHit_of_settle hs), List.map_nil, List.append_nil]
  · rw [sampledNow_of_ne fun hop => hs (fsmOp_eq_sample_iff.mp hop).1, pending_of_ne hs]
    by_cases hop : fsmOp s = some .bitHit
    · rw [balance_of_bitHit ⟨hr, hop⟩ hwf h]
    · have ht : t.state ≠ .settle := fun ht => ((step_effect hr h).phaseStep.to_settle ht).elim hs hop
      rw [pending_of_ne ht, hitsNow_of_ne hop, List.map_nil]

/-- A run samples what was pending and then what its hits promise, in this order, as far as it goes. -/
theorem samples_prefix {n : Nat} {s : State} (hi : Inv s) (hn : NoReset n s) :
    samples n s <+: pending s ++ (bitHits n s).map (promised s) := by
  induction n generalizing s with
  | zero => exact List.nil_prefix
  | succ n ih =>
    obtain ⟨t, h⟩ := hi.step_next
    have hbalance := balance_step (noReset_now hn) hi.config h
    rw [samples_succ h, promised_bitHits_succ h, ← List.append_assoc, ← hbalance, List.append_assoc]
    exact (List.prefix_append_right_inj _).mpr (ih (inv_step hi h) (noReset_step hn h))

end

/-- Settles O42: in Idle nothing is pending, so the run samples what its hits promise. -/
theorem everySampleIsTheLineAfterItsHit : Obligations.EverySampleIsTheLineAfterItsHit := by
  intro n s hi hs hn
  have hprefix := samples_prefix hi hn
  rw [pending_of_ne (by rw [hs]; decide), List.nil_append] at hprefix
  have hlen : (samples n s).length ≤ (bitHits n s).length := by simpa using hprefix.length_le
  refine ⟨hlen, fun i hi => ?_⟩
  rw [List.getD_eq_getElem _ _ hi, List.getD_eq_getElem _ _ (hi.trans_le hlen), hprefix.getElem hi, List.getElem_map]
  rfl

end Sys2Proof.Machine
end

section
/-! The statements on the zero fill and the output port (43_error_fill_and_output.md): ERR.FILL, POP, a POP beside the
FSM operation, how long Error lasts, and the bits that every transaction delivers. -/

namespace Sys2Proof.Machine

/-! ## ERR.FILL -/

/-- R121: ERR.FILL is selected in no other control state. -/
theorem fsmOp_eq_errFill_iff {s : State} : fsmOp s = some .errFill ↔ s.state = .error := by
  refine ⟨fun h => ?_, fsmOp_of_error⟩
  rw [fsmOp_eq, Option.some_inj] at h
  have hrow := rowState_opOf s.state (acc s) (hit s) (tc s)
  rw [h] at hrow
  exact hrow.symm

/-- Settles O17: ERR.FILL is SHIFTIN of a zero, and SHIFTIN has a lemma for each of its cases. -/
theorem errFillShiftsAZeroIn : Obligations.ErrFillShiftsAZeroIn := by
  intro s
  have hv : BitVec.ofNat 8 ((s.shreg.toNat <<< 1) &&& 0xFF) = shifted s.shreg false := by
    simpa using ofNat_shift_eq_shifted s.shreg false
  have hexec : exec .errFill s = shiftIn false s := rfl
  simp only [hv, hexec]
  refine ⟨fsmOp_eq_errFill_iff, shiftIn_inside, fun hp h39 hf => ?_, fun h39 hf => ?_⟩
  · rw [shiftIn_push hp hf, if_neg h39]
  · have hp : s.bitcnt.toNat % 8 = 7 := by rw [h39]; rfl
    rw [shiftIn_push hp hf, if_pos h39]

/-! ## POP -/

theorem portOp_eq_pop_iff {s : State} : portOp s = some .pop ↔ s.fifo ≠ [] ∧ s.now.outReady = true := by
  rw [portOp_eq, ite_eq_left_iff]
  simp [outValid_iff, List.length_pos_iff]

theorem fifoPop_of_cons {s : State} {b : Byte} {rest : List Byte} (h : s.fifo = b :: rest) :
    fifoPop s = { s with fifo := rest, popped := s.popped ++ [(s.tick, b)] } := by
  rw [fifoPop, h]

theorem fifoPop_of_nil {s : State} (h : s.fifo = []) : fifoPop s = s := by
  rw [fifoPop, h]

/-- Settles O19: the guard is the port word's, and the writes are those of `fifoPop` on a FIFO with and without a
head. -/
theorem popTakesTheHead : Obligations.PopTakesTheHead := by
  intro s
  have hexec : exec .pop s = .next (fifoPop s) := rfl
  refine ⟨portOp_eq_pop_iff, fun h => ?_, fun hf => ?_, fun b rest hf => ⟨outByte_of_cons hf, ?_⟩,
    fun b t hf hs h => ?_⟩
  · rw [portOp_eq] at h ⊢
    exact if_neg fun hp => h (if_pos hp)
  · rw [hexec, fifoPop_of_nil hf]
  · rw [hexec, fifoPop_of_cons hf]
  · cases h
    exact (reqReady_iff _).mpr ⟨by rw [fifoPop_state, hs], by rw [fifoPop_fifo, hf]; rfl⟩

/-! ## A POP beside the FSM operation

What an FSM operation writes does not depend on the bytes in the FIFO or taken from it, and of the ports it reads the
line and the request word alone. -/

/-- `s` with what is outside the FSM replaced: the coming inputs, the FIFO, and the bytes the host has taken. -/
def State.withOutside (s : State) (is : List Inputs) (f : List Byte) (p : List (Nat × Byte)) : State :=
  { s with inputs := is, fifo := f, popped := p }

section
variable {s u : State} {is : List Inputs} {f : List Byte} {p : List (Nat × Byte)}

/-- SHIFTIN writes the same, and pushes the same, with another outside. -/
theorem shiftIn_withOutside {b : Bool} (h : shiftIn b s = .next u) (hf : f.length ≤ s.fifo.length) :
    ∃ pushed, pushed.length ≤ 1 ∧ u.fifo = s.fifo ++ pushed ∧
      shiftIn b (s.withOutside is f p) = .next (u.withOutside is (f ++ pushed) p) := by
  rcases shiftIn_cases h with ⟨hp, rfl⟩ | ⟨hp, h39, hroom, rfl⟩ | ⟨h39, hroom, rfl⟩
  · refine ⟨[], Nat.zero_le _, (List.append_nil _).symm, ?_⟩
    rw [shiftIn_inside (s := s.withOutside is f p) hp, List.append_nil]; rfl
  · refine ⟨[shifted s.shreg b], le_rfl, rfl, ?_⟩
    rw [shiftIn_push (s := s.withOutside is f p) hp (hf.trans_lt hroom), if_neg (by exact h39)]; rfl
  · refine ⟨[shifted s.shreg b], le_rfl, rfl, ?_⟩
    have hp : s.bitcnt.toNat % 8 = 7 := by rw [h39]; rfl
    rw [shiftIn_push (s := s.withOutside is f p) hp (hf.trans_lt hroom), if_pos (by exact h39)]; rfl

/-- An FSM operation writes the same, and pushes the same, with another outside that shows it the same line and request
word. -/
theorem exec_withOutside {i : Instr} (hi : i ≠ .pop) (h : exec i s = .next u) (hf : f.length ≤ s.fifo.length)
    (hl : (s.withOutside is f p).now.lineI = s.now.lineI)
    (hq : (s.withOutside is f p).now.reqTicks = s.now.reqTicks) :
    ∃ pushed, pushed.length ≤ 1 ∧ u.fifo = s.fifo ++ pushed ∧
      exec i (s.withOutside is f p) = .next (u.withOutside is (f ++ pushed) p) := by
  cases i
  case pop => exact absurd rfl hi
  case sample =>
    simp only [exec, execSample, hl]
    exact shiftIn_withOutside (s := (s.goto .bitWait).setCnt s.budget) h hf
  case errFill => exact shiftIn_withOutside h hf
  case start =>
    cases h
    refine ⟨[], Nat.zero_le _, (List.append_nil _).symm, ?_⟩
    simp only [exec, execStart, State.reqTake, hq, List.append_nil]; rfl
  all_goals
    cases h
    exact ⟨[], Nat.zero_le _, (List.append_nil _).symm, by rw [List.append_nil]; rfl⟩

end

/-- Settles O20: the tick with POP runs the operation of the tick without it, on the same registers and another
outside. -/
theorem popAndFsmOperationBothTakeEffect : Obligations.PopAndFsmOperationBothTakeEffect := by
  intro s u b rest hf hr ho q
  have hop : fsmOp s = fsmOp q := by rw [fsmOp_eq, fsmOp_eq]; rfl
  refine ⟨hop, fun h => ?_⟩
  obtain ⟨v, hv, rfl⟩ := step_eq_next h hr
  rw [portDone_of_not_outReady rfl] at hv
  have hpop : portDone s = q.withOutside s.inputs rest (s.popped ++ [(s.tick, b)]) := by
    rw [portDone, if_pos (by simp [outValid, State.fifoCnt, hf, ho]), fifoPop_of_cons hf]; rfl
  have hlen : rest.length ≤ q.fifo.length := by simp [q, hf]
  obtain ⟨pushed, h1, hpushed, hexec⟩ :=
    exec_withOutside (is := s.inputs) (f := rest) (p := s.popped ++ [(s.tick, b)])
      (opOf_ne_pop _ _ _ _) hv hlen rfl rfl
  have hinputs : v.inputs.tail = s.inputs.tail := (step_inputs_tick h).1
  refine ⟨pushed, by rw [State.advance_fifo, hpushed, State.withNow_fifo, hf], h1, ?_⟩
  rw [step_of_not_rst hr, hpop]
  show andThen (exec (opOf q.state (acc q) (hit q) (tc q)) _) _ = _
  rw [hexec, andThen_next]
  simp only [State.advance, State.withOutside, hinputs]

/-! ## How long Error lasts -/

theorem ShiftsIn.stays_in_error {s : State} {b : Bool} {c : Ctrl} {n : Word} (h : ShiftsIn s b c n)
    (hs : s.state = .error) : c = .error := by
  rcases h.goes_on with ⟨hset, -⟩ | ⟨-, hc, -⟩
  · rw [hs] at hset; cases hset
  · exact hc

/-- An ERR.FILL before bit 39 stays in Error; that of bit 39 ends the transaction (60_exceptions.md R152). -/
theorem TickEffect.errFill_cases {s t : State} (e : TickEffect s t) (hs : s.state = .error) :
    (s.bitcnt ≠ 39 ∧ t.state = .error ∧ t.bitcnt = s.bitcnt + 1) ∨ (s.bitcnt = 39 ∧ t.state = .idle) := by
  cases e with
  | last _ _ _ _ h39 hr => exact .inr ⟨h39, (regs_eq_iff.mp hr).1⟩
  | inside _ _ _ hshift hp hr =>
    obtain ⟨hc, -, hk, -⟩ := regs_eq_iff.mp hr
    exact .inl ⟨fun h39 => hp (by rw [h39]; rfl), hc.trans (hshift.stays_in_error hs), hk⟩
  | push _ _ _ hshift _ h39 hr =>
    obtain ⟨hc, -, hk, -⟩ := regs_eq_iff.mp hr
    exact .inl ⟨h39, hc.trans (hshift.stays_in_error hs), hk⟩
  | rest hs' | start hs' | release hs' => rw [hs] at hs'; cases hs'
  | down hs' => simp [hs, isWait] at hs'
  | hit hw | timeout hw => rw [hs] at hw; cases hw

/-- A tick in Error: the next bit, or the end. -/
theorem Inv.step_error {s : State} (hi : Inv s) (hs : s.state = .error) (hr : s.now.rst = false) :
    ∃ t, step s = .next t ∧
      ((s.bitcnt.toNat < 39 ∧ t.state = .error ∧ t.bitcnt.toNat = s.bitcnt.toNat + 1) ∨
        (s.bitcnt.toNat = 39 ∧ t.state = .idle)) := by
  obtain ⟨t, ht⟩ := hi.step_next
  have hb := hi.ranges.bitcnt
  rcases (step_effect hr ht).errFill_cases hs with ⟨h39, hts, htb⟩ | ⟨h39, hts⟩
  · exact ⟨t, ht, .inl ⟨bitcnt_lt_last hb h39, hts, by rw [htb, bitcnt_succ_toNat hb]⟩⟩
  · exact ⟨t, ht, .inr ⟨by rw [h39]; rfl, hts⟩⟩

/-- Error goes on, one bit per tick, up to bit 39. -/
theorem error_goes_on {k : Nat} {s : State} (hi : Inv s) (hs : s.state = .error) (hk : k < 40 - s.bitcnt.toNat)
    (hn : NoReset k s) : AfterHolds k s fun u => u.state = .error ∧ u.bitcnt.toNat = s.bitcnt.toNat + k := by
  induction k with
  | zero => exact afterHolds_zero.mpr ⟨hs, rfl⟩
  | succ k ih =>
    obtain ⟨u, hu, hus, hub⟩ := ih (by omega) (noReset_mono hn k.le_succ)
    obtain ⟨t, ht, ⟨-, hts, htb⟩ | ⟨h39, -⟩⟩ :=
      (inv_after hi hu).step_error hus (noReset_now (noReset_after hn hu))
    · exact afterHolds_succ_of_after hu ht ⟨hts, by omega⟩
    · omega

/-- Settles O39: Error goes on up to bit 39, whose ERR.FILL ends it; that its counter is 0 and that Idle is clean are
parts of the invariant. -/
theorem errorLastsTheRestOfTheFrame : Obligations.ErrorLastsTheRestOfTheFrame := by
  intro s hi hs hn
  have hb := hi.ranges.bitcnt
  refine ⟨fun k hk => ?_, ?_⟩
  · obtain ⟨u, hu, hus, hub⟩ := error_goes_on hi hs hk (noReset_mono hn hk.le)
    have hr : u.now.rst = false := by rw [after_now hu]; exact hn k hk
    exact ⟨u, hu, ⟨hr, fsmOp_of_error hus⟩, hub, (inv_after hi hu).ranges.error hus,
      lineOe_of_ne_trigger (by rw [hus]; decide)⟩
  · obtain ⟨k, hk⟩ : ∃ k, 40 - s.bitcnt.toNat = k + 1 := ⟨39 - s.bitcnt.toNat, by omega⟩
    rw [hk] at hn ⊢
    obtain ⟨u, hu, hus, hub⟩ := error_goes_on hi hs (by omega) (noReset_mono hn k.le_succ)
    have hiu := inv_after hi hu
    obtain ⟨t, ht, ⟨hlt, -⟩ | ⟨-, hts⟩⟩ := hiu.step_error hus (noReset_now (noReset_after hn hu))
    · omega
    · exact afterHolds_succ_of_after hu ht ⟨hts, (inv_step hiu ht).clean hts⟩

/-! ## Bits and bytes -/

/-- The low `k` bits of a byte, the most significant first: the `k` bits last shifted in, in order. -/
def lowBits : Nat → Byte → List Bool
  | 0, _ => []
  | k + 1, v => v.getLsbD k :: lowBits k v

/-- The bits of bytes in the order of the frame, bit 7 of the first byte first (20_memory.md R47). -/
def bitsOf (bytes : List Byte) : List Bool := bytes.flatMap (lowBits 8)

/-- The bits of the byte under construction (10_state.md R24). -/
def accumulated (s : State) : List Bool := lowBits (s.bitcnt.toNat % 8) s.shreg

@[simp] theorem lowBits_length (k : Nat) (v : Byte) : (lowBits k v).length = k := by
  induction k with
  | zero => rfl
  | succ k ih => rw [lowBits, List.length_cons, ih]

theorem lowBits_getD {k i : Nat} (v : Byte) (h : i < k) : (lowBits k v).getD i false = v.getLsbD (k - 1 - i) := by
  induction k generalizing i with
  | zero => omega
  | succ k ih =>
    cases i with
    | zero => rfl
    | succ i =>
      rw [lowBits, List.getD_cons_succ, ih (by omega)]
      congr 1; omega

theorem shifted_getLsbD_zero (v : Byte) (b : Bool) : (shifted v b).getLsbD 0 = b := by
  revert v b; decide

theorem shifted_getLsbD_succ (v : Byte) (b : Bool) {k : Nat} (h : k < 7) :
    (shifted v b).getLsbD (k + 1) = v.getLsbD k := by
  have h8 : k + 1 < 8 := by omega
  simp [shifted, h8, BitVec.getLsbD_eq_getElem (show k < 8 by omega)]

/-- A shift appends its bit to those shifted in before it. -/
theorem lowBits_shifted {k : Nat} (v : Byte) (b : Bool) (h : k < 8) :
    lowBits (k + 1) (shifted v b) = lowBits k v ++ [b] := by
  induction k with
  | zero => exact congrArg (fun c => [c]) (shifted_getLsbD_zero v b)
  | succ k ih => rw [lowBits, ih (by omega), shifted_getLsbD_succ v b (by omega)]; rfl

@[simp] theorem bitsOf_append (xs ys : List Byte) : bitsOf (xs ++ ys) = bitsOf xs ++ bitsOf ys :=
  List.flatMap_append

theorem bitsOf_length (bytes : List Byte) : (bitsOf bytes).length = 8 * bytes.length := by
  simp [bitsOf, List.length_flatMap, Nat.mul_comm]

/-- Bit `i` of a frame is the `i`-th of its bits in order. -/
theorem frameBit_eq_getD (bytes : List Byte) (i : Nat) : frameBit bytes i = (bitsOf bytes).getD i false := by
  induction bytes generalizing i with
  | nil => simp [frameBit, bitsOf]
  | cons v bytes ih =>
    have hcons : bitsOf (v :: bytes) = lowBits 8 v ++ bitsOf bytes := rfl
    rw [hcons]
    by_cases hi : i < 8
    · rw [List.getD_append _ _ _ _ (by simpa using hi), lowBits_getD v hi, frameBit, Nat.div_eq_of_lt hi,
        Nat.mod_eq_of_lt hi]
      rfl
    · obtain ⟨j, rfl⟩ : ∃ j, i = j + 8 := ⟨i - 8, by omega⟩
      rw [List.getD_append_right _ _ _ _ (by simp), lowBits_length, Nat.add_sub_cancel, ← ih, frameBit, frameBit,
        Nat.add_div_right _ (by decide), Nat.add_mod_right]
      rfl

/-- Zeros after a list of bits read as what is beyond its end. -/
theorem getD_append_zeros (bits : List Bool) (n i : Nat) :
    (bits ++ List.replicate n false).getD i false = bits.getD i false := by
  by_cases hi : i < bits.length
  · rw [List.getD_append _ _ _ _ hi]
  · have hi : bits.length ≤ i := by omega
    rw [List.getD_append_right _ _ _ _ hi, List.getD_eq_default _ _ hi, List.getD_eq_getElem?_getD,
      List.getElem?_getD_replicate_default_eq]

theorem accumulated_of_bitcnt_zero {s : State} (h : s.bitcnt = 0) : accumulated s = [] := by
  rw [accumulated, h]; rfl

/-! ## What one tick of a transaction shifts in and pushes -/

/-- The bits that the tick shifts in: the level SAMPLE reads, or the zero of ERR.FILL. -/
def shiftedNow (s : State) : List Bool := if s.state = .error then [false] else sampledNow s

section
variable {s t : State}

theorem shiftedNow_of_error (hs : s.state = .error) : shiftedNow s = [false] := if_pos hs

theorem shiftedNow_of_ne (hs : s.state ≠ .error) : shiftedNow s = sampledNow s := if_neg hs

theorem sampledNow_of_ne_settle (hs : s.state ≠ .settle) : sampledNow s = [] :=
  sampledNow_of_ne fun hop => hs (fsmOp_eq_sample_iff.mp hop).1

theorem shiftedNow_of_neither (he : s.state ≠ .error) (hop : fsmOp s ≠ some .sample) : shiftedNow s = [] := by
  rw [shiftedNow_of_ne he, sampledNow_of_ne hop]

theorem shiftedNow_of_isWait (h : isWait s.state = true) : shiftedNow s = [] := by
  refine shiftedNow_of_neither (fun hs => ?_) fun hop => ?_
  · rw [hs] at h; cases h
  · rw [(fsmOp_eq_sample_iff.mp hop).1] at h; cases h

theorem ShiftsIn.shiftedNow_eq {b : Bool} {c : Ctrl} {n : Word} (h : ShiftsIn s b c n) (hr : s.now.rst = false) :
    shiftedNow s = [b] := by
  rcases h with ⟨hs, hc, rfl, -, -⟩ | ⟨hs, rfl, -, -⟩
  · rw [shiftedNow_of_ne (by rw [hs]; decide), sampledNow_of_runs ⟨hr, fsmOp_eq_sample_iff.mpr ⟨hs, hc⟩⟩]
  · exact shiftedNow_of_error hs

/-- The whole bytes shifted in before `s`, if `s` belongs to a transaction or has just ended one. -/
def bytesDone (s : State) : Nat := if s.state = .idle then frameBytes else s.bitcnt.toNat / 8

/-- The tick from `s` to `t` pushes `pushed`: the bits pushed and those then in the accumulator are those that were
in it and those the tick shifts in. -/
structure Pushes (s t : State) (pushed : List Byte) : Prop where
  stream_eq : stream t = stream s ++ pushed
  bits : bitsOf pushed ++ accumulated t = accumulated s ++ shiftedNow s
  count : bytesDone t = bytesDone s + pushed.length

/-- A tick that shifts nothing in. -/
theorem pushes_of_kept (hs : s.state ≠ .idle) (ht : t.state ≠ .idle) (hb : t.bitcnt = s.bitcnt)
    (hv : t.shreg = s.shreg) (hst : stream t = stream s) (hno : shiftedNow s = []) : Pushes s t [] where
  stream_eq := by rw [hst, List.append_nil]
  bits := by rw [hno, List.append_nil, accumulated, accumulated, hb, hv]; rfl
  count := by rw [bytesDone, bytesDone, if_neg hs, if_neg ht, hb]; rfl

theorem pushes_of_inside {b : Bool} (hs : s.state ≠ .idle) (ht : t.state ≠ .idle) (hle : s.bitcnt.toNat ≤ 39)
    (hp : s.bitcnt.toNat % 8 ≠ 7) (hb : t.bitcnt = s.bitcnt + 1) (hv : t.shreg = shifted s.shreg b)
    (hst : stream t = stream s) (hnow : shiftedNow s = [b]) : Pushes s t [] where
  stream_eq := by rw [hst, List.append_nil]
  bits := by
    have hmod : (s.bitcnt.toNat + 1) % 8 = s.bitcnt.toNat % 8 + 1 := by omega
    rw [hnow, accumulated, accumulated, hb, hv, bitcnt_succ_toNat hle, hmod, lowBits_shifted _ _ (by omega)]; rfl
  count := by
    rw [bytesDone, bytesDone, if_neg hs, if_neg ht, hb, bitcnt_succ_toNat hle, List.length_nil]
    omega

/-- A tick that shifts in the last bit of a byte. -/
theorem pushes_of_full {b : Bool} (hp : s.bitcnt.toNat % 8 = 7) (hb : t.bitcnt.toNat % 8 = 0)
    (hst : stream t = stream s ++ [shifted s.shreg b]) (hnow : shiftedNow s = [b])
    (hcount : bytesDone t = bytesDone s + 1) : Pushes s t [shifted s.shreg b] where
  stream_eq := hst
  bits := by
    have hbits : bitsOf [shifted s.shreg b] = lowBits 8 (shifted s.shreg b) := List.append_nil _
    rw [hnow, hbits, accumulated, accumulated, hp, hb, lowBits_shifted _ _ (by decide)]
    exact List.append_nil _
  count := hcount

/-- Every tick of a transaction pushes what it completes. -/
theorem TickEffect.pushes (e : TickEffect s t) (hr : s.now.rst = false) (hi : Inv s) (hs : s.state ≠ .idle) :
    ∃ pushed, Pushes s t pushed := by
  have hle := hi.ranges.bitcnt
  cases e with
  | rest h | start h => exact absurd h hs
  | down h hc hregs hst =>
    obtain ⟨ht, -, hb, hv⟩ := regs_eq_iff.mp hregs
    exact ⟨[], pushes_of_kept hs (ht ▸ hs) hb hv hst (shiftedNow_of_neither (fun he => by simp [he, isWait] at h)
      fun hop => not_le.mpr hc (fsmOp_eq_sample_iff.mp hop).2)⟩
  | release h _ hregs hst =>
    obtain ⟨ht, -, hb, hv⟩ := regs_eq_iff.mp hregs
    exact ⟨[], pushes_of_kept hs (by rw [ht]; decide) hb hv hst (shiftedNow_of_neither (by rw [h]; decide)
      fun hop => by cases h.symm.trans (fsmOp_eq_sample_iff.mp hop).1)⟩
  | hit h _ hregs hst =>
    obtain ⟨ht, -, hb, hv⟩ := regs_eq_iff.mp hregs
    exact ⟨[], pushes_of_kept hs (by rw [ht]; exact (hitNext_ne h).2.2) hb hv hst (shiftedNow_of_isWait h)⟩
  | timeout h _ _ hregs hst =>
    obtain ⟨ht, -, hb, hv⟩ := regs_eq_iff.mp hregs
    exact ⟨[], pushes_of_kept hs (by rw [ht]; decide) hb hv hst (shiftedNow_of_isWait h)⟩
  | inside b c n h hp hregs hst =>
    obtain ⟨ht, -, hb, hv⟩ := regs_eq_iff.mp hregs
    exact ⟨[], pushes_of_inside hs (by rw [ht]; exact h.ne_idle.2) hle hp hb hv hst (h.shiftedNow_eq hr)⟩
  | push b c n h hp h39 hregs hst =>
    obtain ⟨ht, -, hb, -⟩ := regs_eq_iff.mp hregs
    have hsucc : t.bitcnt.toNat = s.bitcnt.toNat + 1 := by rw [hb, bitcnt_succ_toNat hle]
    have htidle : t.state ≠ .idle := by rw [ht]; exact h.ne_idle.2
    refine ⟨_, pushes_of_full hp (by omega) hst (h.shiftedNow_eq hr) ?_⟩
    rw [bytesDone, bytesDone, if_neg hs, if_neg htidle]
    omega
  | last b c n h h39 hregs hst =>
    obtain ⟨ht, -, hb, -⟩ := regs_eq_iff.mp hregs
    refine ⟨_, pushes_of_full (by rw [h39]; rfl) (by rw [hb]; rfl) hst (h.shiftedNow_eq hr) ?_⟩
    rw [bytesDone, bytesDone, if_neg hs, if_pos ht, h39]; rfl

end

/-! ## How many ticks a transaction has left -/

/-- The most ticks that follow the present phase, with `n` bits shifted in (70_reset_and_hazards.md R179). -/
def laterTicks (cfg : Config) (n : Nat) : Ctrl → Nat
  | .idle => 0
  | .trigger => 43 * cfg.waitBudget.toNat + 40 * cfg.settleTicks.toNat
  | .awaitRise1 => 42 * cfg.waitBudget.toNat + 40 * cfg.settleTicks.toNat
  | .awaitFall => 41 * cfg.waitBudget.toNat + 40 * cfg.settleTicks.toNat
  | .awaitRise2 => 40 * cfg.waitBudget.toNat + 40 * cfg.settleTicks.toNat
  | .bitWait => (39 - n) * cfg.waitBudget.toNat + (40 - n) * cfg.settleTicks.toNat
  | .settle => (39 - n) * cfg.waitBudget.toNat + (39 - n) * cfg.settleTicks.toNat
  | .error => 39 - n

/-- The most ticks until the block is back in Idle: those of the present phase, which are `cnt` or 1, and later ones. -/
def ticksLeft (s : State) : Nat :=
  if s.state = .idle then 0 else max s.cnt.toNat 1 + laterTicks s.cfg s.bitcnt.toNat s.state

section
variable {s t : State}

theorem ticksLeft_of_idle (h : s.state = .idle) : ticksLeft s = 0 := if_pos h

theorem ticksLeft_of_ne (h : s.state ≠ .idle) :
    ticksLeft s = max s.cnt.toNat 1 + laterTicks s.cfg s.bitcnt.toNat s.state := if_neg h

theorem laterTicks_hitNext {cfg : Config} {n : Nat} {c : Ctrl} (hc : isWait c = true) (hwf : cfg.wf = true)
    (hn : n ≤ 39) : max (hitLoad cfg c).toNat 1 + laterTicks cfg n (hitNext c) ≤ laterTicks cfg n c := by
  obtain ⟨hB, hS⟩ := loads_pos_of_wf hwf
  have hsettle : (40 - n) * cfg.settleTicks.toNat = (39 - n) * cfg.settleTicks.toNat + cfg.settleTicks.toNat := by
    rw [← Nat.succ_mul]; congr 1; omega
  have hwaits : (39 - n) * cfg.waitBudget.toNat ≤ 39 * cfg.waitBudget.toNat := Nat.mul_le_mul_right _ (by omega)
  have hdelays : (40 - n) * cfg.settleTicks.toNat ≤ 40 * cfg.settleTicks.toNat := Nat.mul_le_mul_right _ (by omega)
  cases c
  case awaitRise1 | awaitFall | awaitRise2 | bitWait => simp only [laterTicks, hitNext, hitLoad]; omega
  all_goals cases hc

theorem laterTicks_error {cfg : Config} {n : Nat} {c : Ctrl} (hc : isWait c = true) (hwf : cfg.wf = true)
    (hn : n ≤ 39) : 1 + laterTicks cfg n .error ≤ laterTicks cfg n c := by
  obtain ⟨hB, hS⟩ := loads_pos_of_wf hwf
  have hdelays : 40 - n ≤ (40 - n) * cfg.settleTicks.toNat := Nat.le_mul_of_pos_right _ hS
  cases c
  case awaitRise1 | awaitFall | awaitRise2 | bitWait => simp only [laterTicks]; omega
  all_goals cases hc

theorem laterTicks_shift {b : Bool} {c : Ctrl} {n : Word} (h : ShiftsIn s b c n) (hi : Inv s) (h39 : s.bitcnt ≠ 39) :
    max n.toNat 1 + laterTicks s.cfg (s.bitcnt + 1).toNat c ≤ laterTicks s.cfg s.bitcnt.toNat s.state := by
  obtain ⟨hB, -⟩ := loads_pos_of_wf hi.config
  have hlt := bitcnt_lt_last hi.ranges.bitcnt h39
  rw [bitcnt_succ_toNat hi.ranges.bitcnt]
  rcases h.goes_on with ⟨hs, rfl, rfl⟩ | ⟨hs, rfl, rfl⟩
  · obtain ⟨m, hm⟩ : ∃ m, s.bitcnt.toNat + m = 38 := ⟨38 - s.bitcnt.toNat, by omega⟩
    have h1 : 39 - (s.bitcnt.toNat + 1) = m := by omega
    have h2 : 40 - (s.bitcnt.toNat + 1) = m + 1 := by omega
    have h3 : 39 - s.bitcnt.toNat = m + 1 := by omega
    simp only [hs, laterTicks, h1, h2, h3, Nat.add_one_mul]
    omega
  · have hcnt : s.cnt.toNat = 0 := by rw [hi.ranges.error hs]; rfl
    simp only [hs, laterTicks, hcnt]
    omega

/-- Every tick of a transaction leaves fewer ticks. -/
theorem TickEffect.ticksLeft_lt (e : TickEffect s t) (hi : Inv s) (hs : s.state ≠ .idle) (hcfg : t.cfg = s.cfg) :
    ticksLeft t < ticksLeft s := by
  have hle := hi.ranges.bitcnt
  obtain ⟨hB, -⟩ := loads_pos_of_wf hi.config
  rw [ticksLeft_of_ne hs]
  by_cases htidle : t.state = .idle
  · rw [ticksLeft_of_idle htidle]; omega
  rw [ticksLeft_of_ne htidle, hcfg]
  cases e with
  | rest h | start h => exact absurd h hs
  | last _ _ _ _ _ hregs => exact absurd (regs_eq_iff.mp hregs).1 htidle
  | down _ hc hregs =>
    obtain ⟨ht, hn, hb, -⟩ := regs_eq_iff.mp hregs
    rw [ht, hn, hb, cnt_pred_toNat hc]
    omega
  | release h _ hregs =>
    obtain ⟨ht, hn, hb, -⟩ := regs_eq_iff.mp hregs
    rw [ht, hn, hb, h]
    simp only [laterTicks]
    omega
  | hit h _ hregs =>
    obtain ⟨ht, hn, hb, -⟩ := regs_eq_iff.mp hregs
    rw [ht, hn, hb]
    have := laterTicks_hitNext h hi.config hle
    omega
  | timeout h _ _ hregs =>
    obtain ⟨ht, hn, hb, -⟩ := regs_eq_iff.mp hregs
    rw [ht, hn, hb]
    have hlater := laterTicks_error h hi.config hle
    have hzero : (0 : Word).toNat = 0 := rfl
    omega
  | inside _ _ _ h hp hregs =>
    obtain ⟨ht, hn, hb, -⟩ := regs_eq_iff.mp hregs
    rw [ht, hn, hb]
    have := laterTicks_shift h hi fun h39 => hp (by rw [h39]; rfl)
    omega
  | push _ _ _ h _ h39 hregs =>
    obtain ⟨ht, hn, hb, -⟩ := regs_eq_iff.mp hregs
    rw [ht, hn, hb]
    have := laterTicks_shift h hi h39
    omega

end

/-! ## The rest of a transaction -/

/-- The transaction that `s` belongs to is over after `T` ticks, in `t`, and has by then pushed `bytes`: the bits that
`s` holds in the accumulator, those sampled, and zeros after them. -/
structure RestOfTransaction (T : Nat) (s t : State) (bytes : List Byte) : Prop where
  running : ∀ k, k < T → AfterHolds k s fun u => u.state ≠ .idle
  ends : after T s = .next t
  idle : t.state = .idle
  stream_eq : stream t = stream s ++ bytes
  count : bytesDone s + bytes.length = frameBytes
  bits : ∃ zeros, bitsOf bytes = accumulated s ++ samples T s ++ List.replicate zeros false
  /-- After a failure, and after the end, nothing is sampled. -/
  sampled : s.state = .error ∨ s.state = .idle → samples T s = []

section
variable {s t u : State}

theorem restOfTransaction_of_idle (hi : Inv s) (hs : s.state = .idle) : RestOfTransaction 0 s s [] where
  running k hk := absurd hk (Nat.not_lt_zero k)
  ends := rfl
  idle := hs
  stream_eq := (List.append_nil _).symm
  count := by rw [bytesDone, if_pos hs]; rfl
  bits := ⟨0, by rw [accumulated_of_bitcnt_zero (hi.clean hs).1]; rfl⟩
  sampled _ := rfl

/-- A tick of the transaction pushes what it completes, and the rest follows; once a zero has been filled in, zeros
alone follow. -/
theorem RestOfTransaction.of_step {T : Nat} {pushed bytes : List Byte} (h : RestOfTransaction T t u bytes)
    (hs : s.state ≠ .idle) (hr : s.now.rst = false) (hstep : step s = .next t) (hp : Pushes s t pushed) :
    RestOfTransaction (T + 1) s u (pushed ++ bytes) := by
  have hsamples : samples (T + 1) s = sampledNow s ++ samples T t := samples_succ hstep T
  have hfailed : s.state = .error → samples T t = [] ∧ samples (T + 1) s = [] := fun he => by
    have hlater : samples T t = [] := h.sampled ((step_effect hr hstep).phaseStep.from_error he)
    exact ⟨hlater, by rw [hsamples, hlater, sampledNow_of_ne_settle (by rw [he]; decide)]; rfl⟩
  obtain ⟨zeros, hbits⟩ := h.bits
  have hall : bitsOf (pushed ++ bytes) =
      accumulated s ++ (shiftedNow s ++ samples T t ++ List.replicate zeros false) := by
    rw [bitsOf_append, hbits, List.append_assoc, ← List.append_assoc (bitsOf pushed), hp.bits, List.append_assoc,
      List.append_assoc]
  exact {
    running := fun
      | 0, _ => afterHolds_zero.mpr hs
      | k + 1, hk => (afterHolds_succ_of_step hstep).mpr (h.running k (by omega))
    ends := (after_succ_of_step hstep T).trans h.ends
    idle := h.idle
    stream_eq := by rw [h.stream_eq, hp.stream_eq, List.append_assoc]
    count := by rw [← h.count, hp.count, List.length_append, Nat.add_assoc]
    bits := by
      by_cases he : s.state = .error
      · obtain ⟨hlater, hnone⟩ := hfailed he
        exact ⟨zeros + 1, by rw [hall, hlater, hnone, shiftedNow_of_error he, List.append_nil, List.append_nil]; rfl⟩
      · exact ⟨zeros, by rw [hall, hsamples, shiftedNow_of_ne he]; simp only [List.append_assoc]⟩
    sampled := fun he => (hfailed (he.resolve_right hs)).2 }

/-- From every state with the invariant the transaction comes to its end within the ticks left, by induction on these. -/
theorem Inv.restOfTransaction {s : State} (hi : Inv s) (hn : NoReset (ticksLeft s) s) :
    ∃ T t bytes, T ≤ ticksLeft s ∧ RestOfTransaction T s t bytes := by
  induction hm : ticksLeft s using Nat.strong_induction_on generalizing s with
  | _ m ih =>
    subst hm
    by_cases hs : s.state = .idle
    · exact ⟨0, s, [], Nat.zero_le _, restOfTransaction_of_idle hi hs⟩
    · obtain ⟨t, hstep⟩ := hi.step_next
      obtain ⟨n, hleft⟩ : ∃ n, ticksLeft s = n + 1 :=
        ⟨ticksLeft s - 1, by rw [ticksLeft_of_ne hs]; omega⟩
      rw [hleft] at hn
      have hr := noReset_now hn
      have e := step_effect hr hstep
      have hlt : ticksLeft t < ticksLeft s := e.ticksLeft_lt hi hs (step_cfg hstep)
      have hnt : NoReset (ticksLeft t) t := noReset_mono (noReset_step hn hstep) (by omega)
      obtain ⟨T, u, bytes, hT, hrest⟩ := ih _ hlt (inv_step hi hstep) hnt rfl
      obtain ⟨pushed, hp⟩ := e.pushes hr hi hs
      exact ⟨T + 1, u, pushed ++ bytes, by omega, hrest.of_step hs hr hstep hp⟩

end

/-! ## The whole transaction -/

/-- START begins a transaction with nothing shifted in and, of ticks left, the bound of 70_reset_and_hazards.md R179. -/
theorem Starts.begins_transaction {s : State} (h : Starts s) :
    ∃ t, step s = .next t ∧ t.state = .trigger ∧ t.bitcnt = 0 ∧ stream t = stream s ∧
      ticksLeft t = transactionBound s := by
  obtain ⟨hr, hs, hv, hf⟩ := h
  refine ⟨_, step_start hr hs ((acc_iff s).mpr ⟨hv, hf⟩), rfl, rfl, rfl, ?_⟩
  exact (Nat.add_assoc _ _ _).symm

/-- Settles O40: the rest of the transaction after START, whose accumulator is empty, is all of it. -/
theorem transactionDeliversSamplesThenZeros : Obligations.TransactionDeliversSamplesThenZeros := by
  intro s hi hstarts hn
  have hs : s.state = .idle := hstarts.2.1
  obtain ⟨t, hstep, ht, hb, hst, hleft⟩ := hstarts.begins_transaction
  have hnt : NoReset (ticksLeft t) t := hleft ▸ noReset_step hn hstep
  obtain ⟨T, u, bytes, hT, hrest⟩ := (inv_step hi hstep).restOfTransaction hnt
  have hsampled : samples (T + 1) s = samples T t := by
    rw [samples_succ hstep, sampledNow_of_ne_settle (by rw [hs]; decide), List.nil_append]
  have hlen : bytes.length = 5 := by
    have hnone : bytesDone t = 0 := by rw [bytesDone, if_neg (by rw [ht]; decide), hb]; rfl
    have hcount := hrest.count
    rwa [hnone, Nat.zero_add] at hcount
  obtain ⟨zeros, hbits⟩ := hrest.bits
  rw [accumulated_of_bitcnt_zero hb, List.nil_append] at hbits
  refine ⟨T, hleft ▸ hT, fun k h1 hk => ?_, ?_⟩
  · obtain ⟨j, rfl⟩ : ∃ j, k = j + 1 := ⟨k - 1, by omega⟩
    exact (afterHolds_succ_of_step hstep).mpr (hrest.running j hk)
  · rw [afterHolds_succ_of_step hstep, hsampled]
    refine ⟨u, hrest.ends, hrest.idle, bytes, hlen, by rw [hrest.stream_eq, hst], ?_, fun i _ => ?_⟩
    · have hlength := congrArg List.length hbits
      rw [bitsOf_length, hlen, List.length_append] at hlength
      omega
    · rw [frameBit_eq_getD, hbits, getD_append_zeros]

end Sys2Proof.Machine
end

section
/-! What `read()` makes of a frame (44_host_driver_contract.md R135 to R139): the model's masks and shifts said as
arithmetic, and its result in the two cases of the checksum. -/

namespace Sys2Proof.Machine

/-- R135: the mask with `0xFF` is the remainder modulo 256. -/
theorem Frame.valid_iff (f : Frame) :
    f.valid = true ↔ (f.b0.toNat + f.b1.toNat + f.b2.toNat + f.b3.toNat) % 256 = f.b4.toNat := by
  have hmask : f.sum4 &&& 0xFF = f.sum4 % 256 := Nat.and_two_pow_sub_one_eq_mod f.sum4 8
  rw [Frame.valid, beq_iff_eq, hmask, Frame.sum4]

/-- Two bytes taken big-endian, as R136 and R137 write it. -/
theorem shiftLeft_eight_add (hi lo : Nat) : (hi <<< 8) + lo = 256 * hi + lo := by
  rw [Nat.shiftLeft_eq, Nat.mul_comm]

theorem Frame.humidity10_eq (f : Frame) : f.humidity10 = 256 * f.b0.toNat + f.b1.toNat :=
  shiftLeft_eight_add ..

theorem Frame.temperature10_eq (f : Frame) : f.temperature10 = 256 * f.b2.toNat + f.b3.toNat :=
  shiftLeft_eight_add ..

/-- R139: the division by ten is exact, and leaves one digit after the point. -/
theorem Decimal.ofTenths_exact (v : Nat) :
    10 * (Decimal.ofTenths v).units + (Decimal.ofTenths v).tenth = v ∧ (Decimal.ofTenths v).tenth < 10 :=
  ⟨Nat.div_add_mod v 10, Nat.mod_lt v (by decide)⟩

theorem Frame.reading_of_valid {f : Frame} (h : f.valid = true) :
    f.reading = some ⟨f.temperature10, f.humidity10⟩ :=
  if_pos h

theorem Frame.reading_of_invalid {f : Frame} (h : f.valid = false) : f.reading = none :=
  if_neg (Bool.eq_false_iff.mp h)

theorem Frame.readResult_of_valid {f : Frame} (h : f.valid = true) :
    f.readResult = (some (Decimal.ofTenths f.temperature10), some (Decimal.ofTenths f.humidity10)) := by
  rw [Frame.readResult, Frame.reading_of_valid h]

theorem Frame.readResult_of_invalid {f : Frame} (h : f.valid = false) : f.readResult = (none, none) := by
  rw [Frame.readResult, Frame.reading_of_invalid h]

/-- Settles O44: the checksum decides which of the two results `read()` gives, and the figures of a valid frame are
divided by ten exactly. -/
theorem readConvertsValidFramesOnly : Obligations.ReadConvertsValidFramesOnly := by
  refine ⟨fun f => ⟨f.valid_iff, fun h => ?_, Frame.readResult_of_invalid⟩, by decide⟩
  rw [← f.temperature10_eq, ← f.humidity10_eq]
  obtain ⟨hT, hTdigit⟩ := Decimal.ofTenths_exact f.temperature10
  obtain ⟨hH, hHdigit⟩ := Decimal.ofTenths_exact f.humidity10
  exact ⟨Frame.reading_of_valid h, _, _, Frame.readResult_of_valid h, hT, hTdigit, hH, hHdigit⟩

end Sys2Proof.Machine
end

section
/-! The statement on the one exception (60_exceptions.md R150): a timeout of any of the four waits enters Error. -/

namespace Sys2Proof.Machine

theorem ne_trigger_of_isWait {c : Ctrl} (h : isWait c = true) : c ≠ .trigger := by
  rintro rfl; cases h

/-- Settles O26: the tick is `step_timeout`, which writes `state` and `cnt` only; whatever else changes is the POP of the
same tick, and that keeps the two bit registers and the stream. -/
theorem timeoutEntersErrorPrecisely : Obligations.TimeoutEntersErrorPrecisely := by
  intro s hw hr hl hc
  have hoe : lineOe s = false := lineOe_of_ne_trigger (ne_trigger_of_isWait hw)
  have hbusy : busy s = true := (busy_iff s).mpr (ne_idle_of_isWait hw)
  have hfifo : s.now.outReady = false → (portDone s).fifo = s.fifo := fun ho => by
    rw [portDone_of_not_outReady ho]
  exact ⟨hoe, hbusy, _, step_timeout hr hw hl hc, rfl, rfl, portDone_bitcnt s, portDone_shreg s,
    stream_portDone s, hfifo, rfl, rfl, fsmOp_of_error rfl⟩

end Sys2Proof.Machine
end

section
/-! The statements on what every transaction promises and on the way back to Idle (70_reset_and_hazards.md R180): how many
bits are sampled with and without a failure, where the line is driven, and that a failed transaction may read as valid. -/

namespace Sys2Proof.Machine

/-! ## The way back to Idle -/

theorem laterTicks_le {cfg : Config} (hwf : cfg.wf = true) (n : Nat) (c : Ctrl) :
    laterTicks cfg n c ≤ 43 * cfg.waitBudget.toNat + 40 * cfg.settleTicks.toNat := by
  obtain ⟨hB, -⟩ := loads_pos_of_wf hwf
  have hwaits : (39 - n) * cfg.waitBudget.toNat ≤ 39 * cfg.waitBudget.toNat := Nat.mul_le_mul_right _ (by omega)
  have hdelays : (40 - n) * cfg.settleTicks.toNat ≤ 40 * cfg.settleTicks.toNat := Nat.mul_le_mul_right _ (by omega)
  have hfewer : (39 - n) * cfg.settleTicks.toNat ≤ (40 - n) * cfg.settleTicks.toNat :=
    Nat.mul_le_mul_right _ (by omega)
  cases c <;> simp only [laterTicks] <;> omega

theorem Inv.ticksLeft_le_idleBound {s : State} (hi : Inv s) : ticksLeft s ≤ idleBound s := by
  by_cases hs : s.state = .idle
  · rw [ticksLeft_of_idle hs]; exact Nat.zero_le _
  · rw [ticksLeft_of_ne hs, idleBound, Nat.add_assoc]
    exact Nat.add_le_add_left (laterTicks_le hi.config _ _) _

/-- Every tick outside Idle leaves fewer ticks, or is a reset, which ends in Idle at once (R165). -/
theorem Inv.reaches_idle {s : State} (hi : Inv s) :
    ∃ k, k ≤ ticksLeft s ∧ AfterHolds k s fun u => u.state = .idle := by
  induction hm : ticksLeft s using Nat.strong_induction_on generalizing s with
  | _ m ih =>
    subst hm
    by_cases hs : s.state = .idle
    · exact ⟨0, Nat.zero_le _, afterHolds_zero.mpr hs⟩
    have hpos : 1 ≤ ticksLeft s := by rw [ticksLeft_of_ne hs]; omega
    by_cases hr : s.now.rst = true
    · exact ⟨1, hpos, (afterHolds_succ_of_step (step_of_rst hr)).mpr (afterHolds_zero.mpr rfl)⟩
    · obtain ⟨t, hstep⟩ := hi.step_next
      have hlt : ticksLeft t < ticksLeft s :=
        (step_effect (by simpa using hr) hstep).ticksLeft_lt hi hs (step_cfg hstep)
      obtain ⟨k, hk, hidle⟩ := ih _ hlt (inv_step hi hstep) rfl
      exact ⟨k + 1, by omega, (afterHolds_succ_of_step hstep).mpr hidle⟩

/-- Settles O49: the ticks left, which every tick without reset lowers, are within the bound. -/
theorem everyStateReachesIdle : Obligations.EveryStateReachesIdle := fun _ hi =>
  let ⟨k, hk, hidle⟩ := hi.reaches_idle
  ⟨k, hk.trans hi.ticksLeft_le_idleBound, hidle⟩

/-! ## Timeouts -/

section
variable {s t : State}

theorem TimesOut.runs_timeoutOp (h : TimesOut s) : ∃ w, isWait w = true ∧ Runs (timeoutOp w) s := by
  rcases h with h | h | h | h
  · exact ⟨.awaitRise1, rfl, h⟩
  · exact ⟨.awaitFall, rfl, h⟩
  · exact ⟨.awaitRise2, rfl, h⟩
  · exact ⟨.bitWait, rfl, h⟩

theorem TimesOut.isWait_state (h : TimesOut s) : isWait s.state = true := by
  obtain ⟨w, hw, -, hop⟩ := h.runs_timeoutOp
  rw [((fsmOp_eq_timeoutOp_iff hw).mp hop).1, hw]

theorem TimesOut.state_ne (h : TimesOut s) : s.state ≠ .idle ∧ s.state ≠ .settle ∧ s.state ≠ .error := by
  have hw := h.isWait_state
  refine ⟨fun hs => ?_, fun hs => ?_, fun hs => ?_⟩ <;> (rw [hs] at hw; cases hw)

theorem TimesOut.enters_error (h : TimesOut s) (hstep : step s = .next t) : t.state = .error := by
  obtain ⟨w, hw, hr, hop⟩ := h.runs_timeoutOp
  obtain ⟨rfl, hl, hc⟩ := (fsmOp_eq_timeoutOp_iff hw).mp hop
  rw [step_timeout hr hw (Bool.eq_not.mp hl) hc] at hstep
  cases hstep; rfl

theorem timesOut_of_enters_error (hr : s.now.rst = false) (hstep : step s = .next t) (hs : s.state ≠ .error)
    (ht : t.state = .error) : TimesOut s :=
  (((step_effect hr hstep).phaseStep.to_error ht).resolve_left hs).imp (⟨hr, ·⟩)
    (.imp (⟨hr, ·⟩) (.imp (⟨hr, ·⟩) (⟨hr, ·⟩)))

/-! ## The bits shifted in -/

/-- The bits shifted in before `s`, if `s` belongs to a transaction or has just ended one. -/
def bitsDone (s : State) : Nat := 8 * bytesDone s + s.bitcnt.toNat % 8

theorem bitsDone_of_ne_idle (hs : s.state ≠ .idle) : bitsDone s = s.bitcnt.toNat := by
  rw [bitsDone, bytesDone, if_neg hs]; omega

theorem Inv.bitsDone_of_idle (hi : Inv s) (hs : s.state = .idle) : bitsDone s = 40 := by
  rw [bitsDone, bytesDone, if_pos hs, (hi.clean hs).1]; rfl

theorem Pushes.bitsDone_eq {pushed : List Byte} (h : Pushes s t pushed) :
    bitsDone t = bitsDone s + (shiftedNow s).length := by
  have hbits := congrArg List.length h.bits
  simp only [List.length_append, bitsOf_length, accumulated, lowBits_length] at hbits
  rw [bitsDone, bitsDone, h.count]
  omega

end

/-! ## Runs inside a transaction -/

/-- A run of `n` ticks from `s` to `t`, each without reset and from a state of a transaction. -/
inductive BusyRun : Nat → State → State → Prop where
  | done (s : State) : BusyRun 0 s s
  | tick {n : Nat} {s t u : State} (hr : s.now.rst = false) (hs : s.state ≠ .idle) (hstep : step s = .next t)
      (hrest : BusyRun n t u) : BusyRun (n + 1) s u

theorem busyRun_of_after {n : Nat} {s t : State} (hn : NoReset n s) (h : after n s = .next t)
    (hbusy : ∀ k, k < n → AfterHolds k s fun u => u.state ≠ .idle) : BusyRun n s t := by
  induction n generalizing s with
  | zero => cases h; exact .done _
  | succ n ih =>
    rw [after_succ] at h
    obtain ⟨u, hstep, h⟩ := andThen_eq_next h
    exact .tick (noReset_now hn) (afterHolds_zero.mp (hbusy 0 n.succ_pos)) hstep
      (ih (noReset_step hn hstep) h fun k hk => (afterHolds_succ_of_step hstep).mp (hbusy (k + 1) (by omega)))

/-- After a failure nothing is sampled, and no TIMEOUT executes: Error lasts to the end of the transaction. -/
theorem BusyRun.of_error {n : Nat} {s t : State} (h : BusyRun n s t) (hs : s.state = .error) :
    samples n s = [] ∧ ∀ k u, k < n → after k s = .next u → ¬ TimesOut u := by
  induction h with
  | done => exact ⟨rfl, fun k u hk => absurd hk k.not_lt_zero⟩
  | @tick n s t v hr _ hstep hrest ih =>
    have hlater : samples n t = [] ∧ ∀ k u, k < n → after k t = .next u → ¬ TimesOut u := by
      rcases (step_effect hr hstep).phaseStep.from_error hs with ht | ht
      · exact ih ht
      · cases hrest with
        | done => exact ⟨rfl, fun k u hk => absurd hk k.not_lt_zero⟩
        | tick _ ht' => exact absurd ht ht'
    obtain ⟨hnone, hquiet⟩ := hlater
    refine ⟨by rw [samples_succ hstep, hnone, sampledNow_of_ne_settle (by rw [hs]; decide)]; rfl, fun k u hk hu => ?_⟩
    cases k with
    | zero => cases hu; exact fun hout => hout.state_ne.2.2 hs
    | succ k => exact hquiet k u (by omega) (by rwa [after_succ_of_step hstep] at hu)

/-- The rest of a transaction samples all the bits that are left, or as many as there are before the one TIMEOUT. -/
theorem BusyRun.samples_length {n : Nat} {s t : State} (h : BusyRun n s t) (hi : Inv s) (hs : s.state ≠ .error)
    (ht : t.state = .idle) :
    ((∀ k u, k < n → after k s = .next u → ¬ TimesOut u) → bitsDone s + (samples n s).length = 40) ∧
    ∀ k u, k < n → after k s = .next u → TimesOut u → bitsDone s + (samples n s).length = u.bitcnt.toNat := by
  induction h with
  | done s => exact ⟨fun _ => hi.bitsDone_of_idle ht, fun k u hk => absurd hk k.not_lt_zero⟩
  | @tick n s v t hr hidle hstep hrest ih =>
    rw [samples_succ hstep]
    by_cases hv : v.state = .error
    · have hout : TimesOut s := timesOut_of_enters_error hr hstep hs hv
      obtain ⟨hnone, hquiet⟩ := hrest.of_error hv
      refine ⟨fun hno => absurd hout (hno 0 s n.succ_pos rfl), fun k u hk hu hout' => ?_⟩
      cases k with
      | zero =>
        cases hu
        rw [hnone, sampledNow_of_ne_settle hout.state_ne.2.1, bitsDone_of_ne_idle hidle]; rfl
      | succ k => exact absurd hout' (hquiet k u (by omega) (by rwa [after_succ_of_step hstep] at hu))
    · obtain ⟨pushed, hp⟩ := (step_effect hr hstep).pushes hr hi hidle
      have hdone : bitsDone v = bitsDone s + (sampledNow s).length := by
        rw [hp.bitsDone_eq, shiftedNow_of_ne hs]
      obtain ⟨hall, hbefore⟩ := ih (inv_step hi hstep) hv ht
      rw [List.length_append, ← Nat.add_assoc, ← hdone]
      refine ⟨fun hno => hall fun k u hk hu => hno (k + 1) u (by omega) (by rwa [after_succ_of_step hstep]),
        fun k u hk hu hout => ?_⟩
      cases k with
      | zero => cases hu; exact absurd (hout.enters_error hstep) hv
      | succ k => exact hbefore k u (by omega) (by rwa [after_succ_of_step hstep] at hu) hout

/-! ## The properties of a transaction -/

/-- A run samples what was pending and then what its hits promise, but for what is pending at its end. -/
theorem samples_append_pending {n : Nat} {s t : State} (hi : Inv s) (hn : NoReset n s) (h : after n s = .next t) :
    samples n s ++ pending t = pending s ++ (bitHits n s).map (promised s) := by
  induction n generalizing s with
  | zero => cases h; exact (List.append_nil _).symm
  | succ n ih =>
    rw [after_succ] at h
    obtain ⟨u, hstep, h⟩ := andThen_eq_next h
    rw [samples_succ hstep, promised_bitHits_succ hstep, List.append_assoc,
      ih (inv_step hi hstep) (noReset_step hn hstep) h, ← List.append_assoc, ← List.append_assoc,
      balance_step (noReset_now hn) hi.config hstep]

theorem Inv.afterHolds {s : State} (hi : Inv s) (n : Nat) : AfterHolds n s Inv := by
  induction n with
  | zero => exact afterHolds_zero.mpr hi
  | succ n ih =>
    obtain ⟨u, hu, hiu⟩ := ih
    obtain ⟨t, ht⟩ := hiu.step_next
    exact afterHolds_succ_of_after hu ht (inv_step hiu ht)

section
variable {T : Nat} {s t : State} (hrun : TransactionRun T s t) (hi : Inv s) (hn : NoReset (T + 1) s)
include hrun hi hn

/-- From Idle to Idle nothing is pending: what is sampled is what the hits promise. -/
theorem TransactionRun.samples_eq : samples (T + 1) s = (bitHits (T + 1) s).map (promised s) := by
  have hidle : s.state = .idle := hrun.starts.2.1
  have hbalance := samples_append_pending hi hn hrun.ends
  rwa [pending_of_ne (by rw [hrun.idle]; decide), pending_of_ne (by rw [hidle]; decide), List.append_nil,
    List.nil_append] at hbalance

/-- A transaction samples 40 bits, or as many as there are before its TIMEOUT. -/
theorem TransactionRun.samples_length :
    (¬ Fails T s → (samples (T + 1) s).length = 40) ∧
    ∀ k u, k ≤ T → after k s = .next u → TimesOut u → (samples (T + 1) s).length = u.bitcnt.toNat := by
  have hidle : s.state = .idle := hrun.starts.2.1
  obtain ⟨v, hstep, hv, hb, -, -⟩ := hrun.starts.begins_transaction
  have hrest : BusyRun T v t := busyRun_of_after (noReset_step hn hstep)
    ((after_succ_of_step hstep T).symm.trans hrun.ends) fun k hk => (afterHolds_succ_of_step hstep).mp
      ((hrun.busy (k + 1) (by omega) hk).imp fun u => (busy_iff u).mp)
  have hzero : bitsDone v = 0 := by rw [bitsDone_of_ne_idle (by rw [hv]; decide), hb]; rfl
  have hsamples : samples (T + 1) s = samples T v := by
    rw [samples_succ hstep, sampledNow_of_ne_settle (by rw [hidle]; decide), List.nil_append]
  obtain ⟨hall, hbefore⟩ := hrest.samples_length (inv_step hi hstep) (by rw [hv]; decide) hrun.idle
  rw [hzero, Nat.zero_add, ← hsamples] at hall hbefore
  refine ⟨fun hno => hall fun k u hk hu hout => hno ⟨k + 1, u, hk, by rwa [after_succ_of_step hstep], hout⟩,
    fun k u hk hu hout => ?_⟩
  cases k with
  | zero => cases hu; exact absurd hidle hout.state_ne.1
  | succ k => exact hbefore k u hk (by rwa [after_succ_of_step hstep] at hu) hout

/-- While the transaction runs Trigger, once left, is not entered again. -/
theorem TransactionRun.ne_trigger_of_le {m k : Nat} (h1 : 1 ≤ m) (hm : AfterHolds m s fun u => u.state ≠ .trigger)
    (hmk : m ≤ k) (hk : k ≤ T + 1) : AfterHolds k s fun u => u.state ≠ .trigger := by
  induction k, hmk using Nat.le_induction with
  | base => exact hm
  | succ k hmk ih =>
    obtain ⟨u, hu, hne⟩ := ih (by omega)
    obtain ⟨u', hu', hbusy⟩ := hrun.busy k (by omega) (by omega)
    obtain rfl : u = u' := by rw [hu] at hu'; cases hu'; rfl
    obtain ⟨v, hv⟩ := (inv_after hi hu).step_next
    have hr : u.now.rst = false := by rw [after_now hu]; exact hn k (by omega)
    refine afterHolds_succ_of_after hu hv fun htr => ?_
    rcases (step_effect hr hv).phaseStep.to_trigger htr with htr | hop
    · exact hne htr
    · exact (busy_iff u).mp hbusy (fsmOp_eq_start_iff.mp hop).1

/-- R180 (f), given that the low pulse has its length (R85). -/
theorem TransactionRun.line_driven_iff (hN : NoReset (holdTicks s + 1) s) {k : Nat} (hk : k ≤ T + 1) :
    AfterHolds k s fun u => (lineOe u = true ↔ 1 ≤ k ∧ k ≤ holdTicks s) ∧ lineO u = false := by
  obtain ⟨hbefore, hpulse, hreleased⟩ := lowPulseLastsTheRequestedTicks s hrun.starts hN
  rcases Nat.eq_zero_or_pos k with rfl | hpos
  · exact afterHolds_zero.mpr ⟨by simp [hbefore], rfl⟩
  rcases Nat.lt_or_ge (holdTicks s) k with hlt | hle
  · have hleft : AfterHolds (holdTicks s + 1) s fun u => u.state ≠ .trigger :=
      hreleased.imp fun u ⟨hu, _⟩ => by rw [hu]; decide
    exact (hrun.ne_trigger_of_le hi hn (by omega) hleft hlt hk).imp fun u hu =>
      ⟨⟨fun hoe => absurd ((lineOe_iff u).mp hoe) hu, fun hin => absurd hin.2 (by omega)⟩, rfl⟩
  · exact (hpulse k hpos hle).imp fun u ⟨_, hoe, ho⟩ => ⟨⟨fun _ => ⟨hpos, hle⟩, fun _ => hoe⟩, ho⟩

end

/-- Settles O48: that the transaction ends with five bytes is O40, the low pulse O34; (c) and (d) are how many bits it
samples, with and without a TIMEOUT. -/
theorem transactionsHaveTheListedProperties : Obligations.TransactionsHaveTheListedProperties := by
  intro s hi hstarts hn
  obtain ⟨T, hT, hbusy, t, hends, hidle, bytes, hlen, hstream, -, hbits⟩ :=
    transactionDeliversSamplesThenZeros s hi hstarts hn
  have hrun : TransactionRun T s t :=
    ⟨hstarts, fun k h1 hk => (hbusy k h1 hk).imp fun u => (busy_iff u).mpr, hends, hidle⟩
  have hnT : NoReset (T + 1) s := noReset_mono hn (by omega)
  have hnN : NoReset (holdTicks s + 1) s := noReset_mono hn (by rw [transactionBound]; omega)
  have hsamples := hrun.samples_eq hi hnT
  obtain ⟨hall, hbefore⟩ := hrun.samples_length hi hnT
  refine ⟨T, t, bytes, hrun, {
    fixedLength := ⟨hlen, hstream⟩
    termination := hT
    bitIsSample := fun hno => ?_
    zeroFill := fun k u hk hu hout i hui hi40 => ?_
    cleanIdleAndNoLoss := fun k _ =>
      (hi.afterHolds k).imp fun u hu => ⟨hu.clean, hu.ranges, hu.fifo, hu.accumulator⟩
    lineDiscipline := fun k hk => hrun.line_driven_iff hi hnT hnN hk }⟩
  · have hhits : (bitHits (T + 1) s).length = 40 := by rw [← hall hno, hsamples, List.length_map]
    refine ⟨hhits, fun i hi40 => ?_⟩
    rw [hbits i hi40, hsamples, List.getD_eq_getElem _ _ (by rwa [List.length_map, hhits]), List.getElem_map,
      List.getD_eq_getElem _ _ (by rwa [hhits])]
    rfl
  · rw [hbits i hi40, List.getD_eq_default _ _ (by rwa [hbefore k u hk hu hout])]

/-! ## A failed transaction that reads as valid -/

/-- Five bytes without a bit set are zero. -/
theorem eq_zeros_of_frameBit {bytes : List Byte} (hlen : bytes.length = 5)
    (h : ∀ i, i < 40 → frameBit bytes i = false) : bytes = [0, 0, 0, 0, 0] := by
  refine List.eq_replicate_iff.mpr ⟨hlen, fun v hv => ?_⟩
  obtain ⟨k, hk, rfl⟩ := List.getElem_of_mem hv
  refine BitVec.eq_of_getLsbD_eq fun j hj => ?_
  have hdiv : (8 * k + (7 - j)) / 8 = k := by omega
  have hmod : 7 - (8 * k + (7 - j)) % 8 = j := by omega
  have hbit := h (8 * k + (7 - j)) (by omega)
  rw [frameBit, hdiv, hmod, List.getD_eq_getElem _ _ hk] at hbit
  rw [hbit, BitVec.ofNat_eq_ofNat, BitVec.getLsbD_zero]

/-- A request of one tick accepted now, with `B` = `S` = 1, on a line that stays low: the first wait fails at tick 2. -/
def startOnLowLine : State :=
  { State.reset with
    cfg := ⟨1, 1, 2000⟩
    inputs := List.replicate 85 ⟨false, false, true, 1, false⟩ }

theorem inv_startOnLowLine : Inv startOnLowLine := inv_of_reset_regs (s := startOnLowLine) rfl

theorem starts_startOnLowLine : Starts startOnLowLine := ⟨rfl, rfl, rfl, rfl⟩

theorem noReset_startOnLowLine : NoReset (transactionBound startOnLowLine + 1) startOnLowLine := by
  unfold NoReset; decide

theorem startOnLowLine_times_out :
    ∃ u, after 2 startOnLowLine = .next u ∧ TimesOut u ∧ u.bitcnt.toNat = 0 :=
  ⟨_, rfl, .inl ⟨rfl, rfl⟩, rfl⟩

/-- Any transaction of `startOnLowLine` is still running at tick 2. -/
theorem two_le_of_transactionRun {T : Nat} {t : State} (h : TransactionRun T startOnLowLine t) : 2 ≤ T := by
  obtain ⟨-, -, hends, hidle⟩ := h
  match T with
  | 0 | 1 => cases hends; cases hidle
  | T + 2 => omega

/-- Settles O50: the transaction of `startOnLowLine` fails with no bit sampled, and the five zero bytes it pushes have the
checksum 0. -/
theorem failedFramesAreNotAlwaysInvalid : Obligations.FailedFramesAreNotAlwaysInvalid := by
  intro hclaim
  obtain ⟨T, t, bytes, hrun, hprop⟩ :=
    transactionsHaveTheListedProperties _ inv_startOnLowLine starts_startOnLowLine noReset_startOnLowLine
  obtain ⟨u, hu, hout, hb⟩ := startOnLowLine_times_out
  have hT : 2 ≤ T := two_le_of_transactionRun hrun
  obtain ⟨hlen, hstream⟩ := hprop.fixedLength
  have hzeros : bytes = [0, 0, 0, 0, 0] :=
    eq_zeros_of_frameBit hlen fun i hi => hprop.zeroFill 2 u hT hu hout i (by omega) hi
  have hinvalid : (Frame.mk 0 0 0 0 0).valid = false :=
    hclaim T _ t bytes _ inv_startOnLowLine hrun ⟨2, u, hT, hu, hout⟩ hstream (by rw [hzeros]; rfl)
  exact absurd hinvalid (by decide)

end Sys2Proof.Machine
end

section
/-! The statements on the encoder and on words brought about (30_encoding.md R64 to R68): encoding and decoding agree,
and the tick after `withFetchWord` runs the operation placed. -/

namespace Sys2Proof.Machine

/-! ## Encoding

A word of `n` bits is the bits that a mask keeps, the row's value, and the bits that it ignores. -/

/-- The ignored bits do not show through the mask. -/
theorem masked_of_value_or_ignored {n v m : Nat} (hm : m < 2 ^ n) (hv : v &&& m = v) (f : Nat) :
    (v ||| (f &&& (2 ^ n - 1 - m))) &&& m = v := by
  have hignored : 2 ^ n - 1 - m = 2 ^ n - (m + 1) := by omega
  have hkept : (f &&& (2 ^ n - 1 - m)) &&& m = 0 := Nat.eq_of_testBit_eq fun i => by
    rw [hignored, Nat.testBit_and, Nat.testBit_and, Nat.testBit_two_pow_sub_succ hm, Nat.zero_testBit]
    cases m.testBit i <;> simp
  rw [Nat.and_or_distrib_right, hv, hkept, Nat.or_zero]

/-- A word is its kept bits and its ignored ones. -/
theorem value_or_ignored_of_masked {n d v m : Nat} (hd : d < 2 ^ n) (hm : m < 2 ^ n) (hv : d &&& m = v) :
    v ||| (d &&& (2 ^ n - 1 - m)) = d := by
  have hignored : 2 ^ n - 1 - m = 2 ^ n - (m + 1) := by omega
  rw [← hv, hignored]
  refine Nat.eq_of_testBit_eq fun i => ?_
  rw [Nat.testBit_or, Nat.testBit_and, Nat.testBit_and, Nat.testBit_two_pow_sub_succ hm]
  by_cases hi : i < n
  · cases d.testBit i <;> cases m.testBit i <;> simp [hi]
  · have : d.testBit i = false := Nat.testBit_lt_two_pow (hd.trans_le (Nat.pow_le_pow_right (by decide) (by omega)))
    simp [this]

theorem Row.wf_iff {r : Row} : r.wf = true ↔ r.mask < 2 ^ r.format.width ∧ r.value &&& r.mask = r.value := by
  simp [Row.wf]

theorem encodeWith_format (i : Instr) (free : BitVec 6) : (encodeWith i free).format = i.row.format := rfl

/-- An encoded word fits its format. -/
theorem encodeWith_bits_lt (i : Instr) (free : BitVec 6) : (encodeWith i free).bits < 2 ^ i.row.format.width := by
  obtain ⟨hm, hv⟩ := Row.wf_iff.mp (rowWords i).1
  have hvalue : i.row.value ≤ i.row.mask := hv ▸ Nat.and_le_right
  refine Nat.or_lt_two_pow (hvalue.trans_lt hm) (Nat.and_lt_two_pow _ ?_)
  have := Nat.two_pow_pos i.row.format.width
  omega

/-- The row of an operation selects its encoded words. -/
theorem row_selects_encodeWith (i : Instr) (free : BitVec 6) : i.row.selects (encodeWith i free) = true := by
  obtain ⟨hm, hv⟩ := Row.wf_iff.mp (rowWords i).1
  have hmasked : (encodeWith i free).bits &&& i.row.mask = i.row.value :=
    masked_of_value_or_ignored hm hv free.toNat
  simp [Row.selects, encodeWith_format, hmasked]

theorem decode_encodeWith (i : Instr) (free : BitVec 6) : (decode (encodeWith i free)).toOption = some i :=
  (rowWords i).2 ⟨_, encodeWith_bits_lt i free⟩ (row_selects_encodeWith i free)

theorem encodeWith_of_decodeDispatch {d : BitVec 6} {i : Instr} (h : decodeDispatch d = some i) :
    encodeWith i d = ⟨.dispatch, d.toNat⟩ := by
  obtain ⟨hformat, hmatch⟩ := decodeDispatch_eq_some_iff.mp h
  have hm := (Row.wf_iff.mp (rowWords i).1).1
  rw [hformat] at hm
  rw [encodeWith, hformat]
  exact congrArg _ (value_or_ignored_of_masked d.isLt hm hmatch)

/-- Settles O6: the row of an operation selects each of its words, and a word that a row selects is put together from
the row's value and the word's own ignored bits. -/
theorem decodeOfEncodeIsTheOperation : Obligations.DecodeOfEncodeIsTheOperation :=
  ⟨decode_encodeWith, fun _ _ => encodeWith_of_decodeDispatch⟩

/-- Settles O7: each word is read as `state acc hit tc`, or as `out_valid out_ready`. -/
theorem tableWordsDecodeToTheirRows : Obligations.TableWordsDecodeToTheirRows :=
  ⟨decodeDispatch_opOf .idle false false true, decodeDispatch_opOf .idle true false false,
    decodeDispatch_opOf .trigger true false false, decodeDispatch_opOf .trigger false true true,
    decodeDispatch_opOf .awaitRise1 false true true, decodeDispatch_opOf .awaitFall false false false,
    decodeDispatch_opOf .awaitRise2 false false true, decodeDispatch_opOf .bitWait true true false,
    decodeDispatch_opOf .settle false true false, decodeDispatch_opOf .settle true false true,
    decodeDispatch_opOf .error true true true, decodePort_eq true true, decodePort_eq false false,
    decodePort_eq false true, decodePort_eq true false⟩

/-! ## Placing an operation -/

theorem code_ofCode : ∀ c : BitVec 3, (Ctrl.ofCode c).code = c := by decide

/-- A dispatch word is its four fields (30_encoding.md R64). -/
theorem dispatch_eq_fields : ∀ d : BitVec 6,
    ((d.extractLsb' 3 3 ++ BitVec.ofBool (d.getLsbD 2)) ++ BitVec.ofBool (d.getLsbD 1)) ++
      BitVec.ofBool (d.getLsbD 0) = d := by decide

section
variable (s : State) (d : BitVec 6)

theorem placeDispatch_state : (placeDispatch s d).state = Ctrl.ofCode (d.extractLsb' 3 3) := rfl

theorem placeDispatch_rst : (placeDispatch s d).now.rst = false := rfl

theorem placeDispatch_outReady : (placeDispatch s d).now.outReady = false := rfl

theorem acc_placeDispatch : acc (placeDispatch s d) = d.getLsbD 2 := by
  have hreq : (placeDispatch s d).now.reqValid = d.getLsbD 2 := rfl
  have hfifo : (placeDispatch s d).fifo = if d.getLsbD 2 then [] else s.fifo := rfl
  rw [acc, State.fifoCnt, hreq, hfifo]
  cases d.getLsbD 2 <;> rfl

theorem hit_placeDispatch : hit (placeDispatch s d) = d.getLsbD 1 := by
  have hline : (placeDispatch s d).now.lineI =
      if d.getLsbD 1 then tgt (placeDispatch s d).state else !tgt (placeDispatch s d).state := rfl
  rw [hit, hline]
  cases d.getLsbD 1 <;> simp

theorem tc_placeDispatch : tc (placeDispatch s d) = d.getLsbD 0 := by
  have hcnt : (placeDispatch s d).cnt =
      if tc s = d.getLsbD 0 then s.cnt else if d.getLsbD 0 then 1 else 2 := rfl
  rw [tc, hcnt]
  split
  · assumption
  · cases d.getLsbD 0 <;> rfl

/-- The word placed is the word formed. -/
theorem dispatchWord_placeDispatch : dispatchWord (placeDispatch s d) = d := by
  rw [dispatchWord, placeDispatch_state, code_ofCode, acc_placeDispatch, hit_placeDispatch, tc_placeDispatch,
    dispatch_eq_fields]

end

/-- The tick after placing a dispatch word runs the operation it decodes to, and no POP. -/
theorem step_placeDispatch (s : State) {d : BitVec 6} {i : Instr} (h : decodeDispatch d = some i) :
    step (placeDispatch s d) = andThen (exec i (placeDispatch s d)) fun u => .next u.advance := by
  have hop : fsmOp (placeDispatch s d) = some i := by rw [fsmOp, dispatchWord_placeDispatch, h]
  rw [fsmOp_eq, Option.some_inj] at hop
  rw [step_of_not_rst (placeDispatch_rst s d), hop, portDone_of_not_outReady (placeDispatch_outReady s d)]

theorem row_format_of_ne_pop {i : Instr} (h : i ≠ .pop) : i.row.format = .dispatch := by
  cases i
  case pop => exact absurd rfl h
  all_goals rfl

theorem decodeDispatch_encodeWith {i : Instr} (h : i ≠ .pop) (free : BitVec 6) :
    decodeDispatch (BitVec.ofNat 6 (encodeWith i free).bits) = some i := by
  have hformat : (encodeWith i free).format = .dispatch := row_format_of_ne_pop h
  have hlt := encodeWith_bits_lt i free
  rw [row_format_of_ne_pop h] at hlt
  have hmod : (encodeWith i free).bits % 2 ^ 6 = (encodeWith i free).bits := Nat.mod_eq_of_lt hlt
  rw [← decode_dispatch_toOption, BitVec.toNat_ofNat, hmod, ← hformat]
  exact decode_encodeWith i free

section
variable (s : State)

/-- Where POP's word has been placed a byte is there and the host takes it. -/
theorem portOp_placePort_pop : portOp (placePort s 3) = some .pop := by
  have hfifo : (placePort s 3).fifo = if s.fifo.isEmpty then [0] else s.fifo := rfl
  refine portOp_eq_pop_iff.mpr ⟨?_, rfl⟩
  rw [hfifo]
  cases s.fifo <;> simp

/-- The tick after placing POP's word in Idle runs POP and beside it only IDLE.WAIT, which writes nothing. -/
theorem step_placePort_pop (hs : s.state = .idle) :
    step (placePort s 3) = andThen (exec .pop (placePort s 3)) fun u => .next u.advance := by
  have hacc : acc (placePort s 3) = false := rfl
  have hpop := portOp_placePort_pop s
  rw [portOp_eq, ite_eq_left_iff] at hpop
  have htaken : portDone (placePort s 3) = fifoPop (placePort s 3) := if_pos (by by_contra h; cases hpop h)
  rw [step_idle (s := placePort s 3) rfl hs hacc, htaken]; rfl

end

/-- Settles O8: a word is placed so that its four fields are those formed, and POP's so that the host takes a byte in
Idle. -/
theorem placedOperationIsTheOneRun : Obligations.PlacedOperationIsTheOneRun :=
  ⟨fun s _ free hi => step_placeDispatch s (decodeDispatch_encodeWith hi free),
    fun s hs => ⟨portOp_placePort_pop s, step_placePort_pop s hs⟩⟩

end Sys2Proof.Machine
end

section
/-! The statements on what a step does not read and does not lose (20_memory.md R43 to R52), on the host's duties
(70_reset_and_hazards.md R170, R172, R174), and on the two stops: the one fault and the wait ordinals. -/

namespace Sys2Proof.Machine

/-- Settles O2: registers at their reset values meet the invariant, and `State.reset` is such a state. -/
theorem resetMeetsInvariant : Obligations.ResetMeetsInvariant :=
  ⟨inv_of_reset_regs (s := State.reset) rfl, fun _ => inv_of_reset_regs⟩

/-- Settles O18: only a shift pushes, and only at the end of a byte; with room in the FIFO every operation answers. -/
theorem onlyAPushIntoAFullFifoFaults : Obligations.OnlyAPushIntoAFullFifoFaults := by
  refine fun i s => ⟨fun ⟨hi, hp, hf⟩ => ?_, fun hno => exec_next fun hi hp => ?_⟩
  · have hfull : ¬ s.fifo.length < 5 := not_lt.mpr hf
    rcases hi with rfl | rfl
    · exact shiftIn_full (s := (s.goto .bitWait).setCnt s.budget) hp hfull
    · exact shiftIn_full hp hfull
  · exact not_le.mp fun hf => hno ⟨hi, hp, hf⟩

/-! ## The wait ordinals -/

theorem state_of_timeoutOp {s : State} {w : Ctrl} (hw : isWait w = true) (h : fsmOp s = some (timeoutOp w)) :
    s.state = w := ((fsmOp_eq_timeoutOp_iff hw).mp h).1

/-- With at most 39 bits shifted in, the ordinal of a wait is one of the 43 (60_exceptions.md R146). -/
theorem waitOrdinal_range {s : State} {w : Nat} (hb : s.bitcnt.toNat ≤ 39) (h : waitOrdinal s = some w) :
    1 ≤ w ∧ w ≤ nWaits := by
  have hwaits : nWaits = 43 := rfl
  unfold waitOrdinal at h
  cases hs : s.state <;> simp only [hs, Option.some_inj, reduceCtorEq] at h <;> omega

/-- Settles O27: a TIMEOUT tells its wait, whose ordinal is read off the control state; `raiseTimingFailure` does not
read it. -/
theorem waitOrdinalsAreLabels : Obligations.WaitOrdinalsAreLabels := by
  intro s
  refine ⟨fun h => ?_, fun h => ?_, fun h => ?_, fun h => ?_, fun _ => waitOrdinal_range, fun _ _ => rfl⟩
  · rw [waitOrdinal, state_of_timeoutOp (w := .awaitRise1) rfl h]
  · rw [waitOrdinal, state_of_timeoutOp (w := .awaitFall) rfl h]
  · rw [waitOrdinal, state_of_timeoutOp (w := .awaitRise2) rfl h]
  · rw [waitOrdinal, state_of_timeoutOp (w := .bitWait) rfl h]

/-! ## Inputs that a tick does not read

A tick with other ports is the same tick if they select the same operations and show those the same values. The ports
themselves are gone once the tick is over. -/

section
variable (s : State) (i : Inputs)

theorem fifoPop_withNow : fifoPop (s.withNow i) = (fifoPop s).withNow i := by
  cases h : s.fifo <;> simp [fifoPop, State.withNow, h]

theorem portDone_withNow (h : (outValid s && i.outReady) = (outValid s && s.now.outReady)) :
    portDone (s.withNow i) = (portDone s).withNow i := by
  have hv : outValid (s.withNow i) = outValid s := rfl
  unfold portDone
  rw [hv, State.withNow_now, h]
  split
  · exact fifoPop_withNow s i
  · rfl

/-- A shift and the end of its tick do not read the ports. -/
theorem shiftIn_advance_withNow (b : Bool) :
    (andThen (shiftIn b (s.withNow i)) fun u => .next u.advance) = andThen (shiftIn b s) fun u => .next u.advance := by
  by_cases hp : s.bitcnt.toNat % 8 = 7
  · by_cases hf : s.fifo.length < 5
    · rw [shiftIn_push (s := s.withNow i) hp hf, shiftIn_push hp hf]
      by_cases h39 : s.bitcnt = 39
      · rw [if_pos (by exact h39), if_pos h39]; rfl
      · rw [if_neg (by exact h39), if_neg h39]; rfl
    · rw [shiftIn_full (s := s.withNow i) hp hf, shiftIn_full hp hf]
  · rw [shiftIn_inside (s := s.withNow i) hp, shiftIn_inside hp]; rfl

variable {s i}

/-- Of the ports an FSM operation reads the line in SAMPLE and the request word in START, and nothing else. -/
theorem exec_advance_withNow {op : Instr} (hpop : op ≠ .pop) (hline : op = .sample → i.lineI = s.now.lineI)
    (hreq : op = .start → i.reqTicks = s.now.reqTicks) :
    (andThen (exec op (s.withNow i)) fun u => .next u.advance) = andThen (exec op s) fun u => .next u.advance := by
  cases op
  case pop => exact absurd rfl hpop
  case sample =>
    simp only [exec, execSample, State.withNow_now, hline rfl]
    exact shiftIn_advance_withNow ((s.goto .bitWait).setCnt s.budget) i _
  case errFill => exact shiftIn_advance_withNow s i false
  case start =>
    simp only [exec, execStart, State.reqTake, State.withNow_now, hreq rfl]; rfl
  all_goals rfl

/-- The same tick with other ports. -/
theorem step_withNow (hrst : i.rst = s.now.rst) (hop : fsmOp (s.withNow i) = fsmOp s)
    (hout : (outValid s && i.outReady) = (outValid s && s.now.outReady))
    (hline : Runs .sample s → i.lineI = s.now.lineI) (hreq : Runs .start s → i.reqTicks = s.now.reqTicks) :
    step (s.withNow i) = step s := by
  by_cases hr : s.now.rst = true
  · rw [step_of_rst hr, step_of_rst (s := s.withNow i) (hrst.trans hr)]; rfl
  · have hr : s.now.rst = false := by simpa using hr
    rw [step_of_not_rst hr, step_of_not_rst (s := s.withNow i) (hrst.trans hr), portDone_withNow s i hout]
    have hruns := fsmOp_eq s
    rw [fsmOp_eq, fsmOp_eq, Option.some_inj] at hop
    rw [hop]
    refine exec_advance_withNow (opOf_ne_pop _ _ _ _) (fun h => ?_) fun h => ?_
    · rw [portDone_now]; exact hline ⟨hr, by rw [hruns, h]⟩
    · rw [portDone_now]; exact hreq ⟨hr, by rw [hruns, h]⟩

end

/-- The line tells operations apart only in the four waits (20_memory.md R45). -/
theorem opOf_hit_irrelevant {c : Ctrl} (hw : isWait c = false) (a h h' t : Bool) : opOf c a h t = opOf c a h' t := by
  cases c
  case awaitRise1 | awaitFall | awaitRise2 | bitWait => cases hw
  all_goals rfl

/-- The request port tells operations apart only in Idle (20_memory.md R43). -/
theorem opOf_acc_irrelevant {c : Ctrl} (hs : c ≠ .idle) (a a' h t : Bool) : opOf c a h t = opOf c a' h t := by
  cases c
  case idle => exact absurd rfl hs
  all_goals rfl

theorem Runs.state_of_start {s : State} (h : Runs .start s) : s.state = .idle := (fsmOp_eq_start_iff.mp h.2).1

/-- This tick executes START, in the two ways to say it. -/
theorem runs_start_iff {s : State} : Runs .start s ↔ Starts s := by
  rw [Runs, Starts, fsmOp_eq_start_iff, acc_iff]

/-- Settles O22: each of the inputs leaves the operations of the tick and what these read as they are. -/
theorem unreadInputsChangeNothing : Obligations.UnreadInputsChangeNothing := by
  refine fun s => ⟨fun l hw hsettle => ?_, fun v n hs => ?_, fun n hstart => ?_, fun r hf => ?_, fun i hr hi => ?_⟩
  · refine step_withNow rfl ?_ rfl (fun h => absurd (fsmOp_eq_sample_iff.mp h.2) hsettle) fun _ => rfl
    rw [fsmOp_eq, fsmOp_eq]
    exact congrArg some (opOf_hit_irrelevant hw _ _ _ _)
  · refine step_withNow rfl ?_ rfl (fun _ => rfl) fun h => absurd h.state_of_start hs
    rw [fsmOp_eq, fsmOp_eq]
    exact congrArg some (opOf_acc_irrelevant hs _ _ _ _)
  · exact step_withNow rfl rfl rfl (fun _ => rfl) fun h => absurd (runs_start_iff.mp h) hstart
  · have hempty : outValid s = false := by simp [outValid, State.fifoCnt, hf]
    exact step_withNow rfl rfl (by rw [hempty]; rfl) (fun _ => rfl) fun _ => rfl
  · rw [step_of_rst hr, step_of_rst (s := s.withNow i) hi]; rfl

/-! ## Requests -/

/-- START is selected exactly when the request port transfers (20_memory.md R43). -/
theorem fsmOp_eq_start_iff_transfer {s : State} :
    fsmOp s = some .start ↔ s.now.reqValid = true ∧ reqReady s = true := by
  rw [fsmOp_eq_start_iff, acc_iff, reqReady_iff, List.length_eq_zero_iff]
  exact and_left_comm

/-- With `req_ready` 0 the operation is that of the same tick without a request. -/
theorem fsmOp_without_request {s : State} (h : reqReady s = false) (n : Word) :
    fsmOp (s.withNow { s.now with reqValid := false, reqTicks := n }) = fsmOp s := by
  rw [fsmOp_eq, fsmOp_eq]
  by_cases hs : s.state = .idle
  · have hacc : acc s = false := by rw [acc_of_idle hs, h, Bool.and_false]
    rw [hacc]; rfl
  · exact congrArg some (opOf_acc_irrelevant hs _ _ _ _)

/-- Settles O23: START is `step_start`; while `req_ready` is 0 the tick does not read the request port. -/
theorem requestTransferIsStart : Obligations.RequestTransferIsStart := by
  refine fun s hr => ⟨fsmOp_eq_start_iff_transfer, fun t hop hstep => ?_, fun h => ?_⟩
  · obtain ⟨hs, ha⟩ := fsmOp_eq_start_iff.mp hop
    rw [step_start hr hs ha] at hstep
    cases hstep
    exact ⟨rfl, rfl⟩
  · symm
    refine step_withNow rfl (fsmOp_without_request h 0) rfl (fun _ => rfl) fun hruns => ?_
    rw [(fsmOp_eq_start_iff_transfer.mp hruns.2).2] at h
    cases h

/-- Settles O24, by induction on the ticks: each is an IDLE.WAIT without a POP. -/
theorem undrainedIdleAcceptsNothing : Obligations.UndrainedIdleAcceptsNothing := by
  intro n
  induction n with
  | zero => intro s _ _ _; rfl
  | succ n ih =>
    intro s hs hf hports
    obtain ⟨hr, ho⟩ := hports 0 n.succ_pos
    have hstep : step s = .next s.advance := by
      rw [step_idle hr hs (acc_false_iff.mpr fun h => hf h.2), portDone_of_not_outReady ho]
    rw [after_succ_of_step hstep, ih s.advance hs hf fun k hk => by
      rw [State.advance_inputAt]; exact hports (k + 1) (by omega)]
    simp only [State.advance, List.drop_tail, Nat.add_assoc, Nat.add_comm 1]

/-- A request presented now and held stands at the port at every tick up to the first on which the block is ready. -/
theorem HoldsRequest.presented {n : Nat} {s : State} (h : HoldsRequest n s) (hv : s.now.reqValid = true)
    (hbusy : ∀ k, k < n → AfterHolds k s fun u => reqReady u = false) {k : Nat} (hk : k ≤ n) :
    (s.inputAt k).reqValid = true ∧ (s.inputAt k).reqTicks = s.reqTake := by
  induction k with
  | zero => exact ⟨hv, rfl⟩
  | succ k ih =>
    obtain ⟨hvalid, hticks⟩ := ih (by omega)
    obtain ⟨u, hu, hready⟩ := hbusy k hk
    obtain ⟨hvalid', hticks'⟩ := h k hk hvalid u hu hready
    exact ⟨hvalid', hticks'.trans hticks⟩

/-- Settles O25: the request of now still stands at the port at tick `n`, where the block is ready. -/
theorem heldRequestIsTakenUnchanged : Obligations.HeldRequestIsTakenUnchanged := by
  intro n s hv hholds hbusy ⟨u, hu, hready, hr⟩
  obtain ⟨hvalid, hticks⟩ := hholds.presented hv hbusy le_rfl
  rw [← after_now hu] at hvalid hticks
  exact ⟨u, hu, runs_start_iff.mp ⟨hr, fsmOp_eq_start_iff_transfer.mpr ⟨hvalid, hready⟩⟩, hticks⟩

/-! ## The stream of bytes -/

/-- This tick selects one of the two operations that shift a bit in. -/
theorem fsmOp_shifts_iff {s : State} :
    (fsmOp s = some .sample ∨ fsmOp s = some .errFill) ↔ (s.state = .settle ∧ s.cnt.toNat ≤ 1) ∨ s.state = .error := by
  rw [fsmOp_eq_sample_iff, fsmOp_eq_errFill_iff]

theorem shifts_of_shiftsIn {s : State} {b : Bool} {c : Ctrl} {n : Word} (h : ShiftsIn s b c n) :
    fsmOp s = some .sample ∨ fsmOp s = some .errFill :=
  h.fsmOp.imp (fun h => h.2.1) fun h => h.2.1

/-- A tick pushes one byte at the eighth bit of a shift, and nothing on every other tick. -/
theorem TickEffect.stream_cases {s t : State} (e : TickEffect s t) :
    (stream t = stream s ∧
      ¬ (s.bitcnt.toNat % 8 = 7 ∧ (fsmOp s = some .sample ∨ fsmOp s = some .errFill))) ∨
    ((∃ v, stream t = stream s ++ [v]) ∧
      s.bitcnt.toNat % 8 = 7 ∧ (fsmOp s = some .sample ∨ fsmOp s = some .errFill)) := by
  cases e with
  | inside _ _ _ _ hp _ hb => exact .inl ⟨hb, fun h => hp h.1⟩
  | push _ _ _ hs hp _ _ hb => exact .inr ⟨⟨_, hb⟩, hp, shifts_of_shiftsIn hs⟩
  | last _ _ _ hs h39 _ hb => exact .inr ⟨⟨_, hb⟩, by rw [h39]; rfl, shifts_of_shiftsIn hs⟩
  | rest hs _ _ hb | start hs _ _ hb | release hs _ _ hb =>
    exact .inl ⟨hb, fun h => by simpa [hs] using fsmOp_shifts_iff.mp h.2⟩
  | down hs hc _ hb =>
    refine .inl ⟨hb, fun h => ?_⟩
    rcases fsmOp_shifts_iff.mp h.2 with ⟨-, h1⟩ | he
    · omega
    · simp [he, isWait] at hs
  | hit hs _ _ hb | timeout hs _ _ _ hb =>
    refine .inl ⟨hb, fun h => ?_⟩
    rcases fsmOp_shifts_iff.mp h.2 with ⟨he, -⟩ | he <;> simp [he, isWait] at hs

/-- What the host has taken after a tick was in the stream before it. -/
theorem step_popped_prefix {s t : State} (hr : s.now.rst = false) (h : step s = .next t) :
    t.popped.map Prod.snd <+: stream s := by
  rw [step_popped hr h, ← stream_portDone s]
  exact List.prefix_append _ _

/-- Settles O32: a tick pushes one byte or none, and its POP takes what was pushed before. -/
theorem streamOnlyGrowsByWholeBytes : Obligations.StreamOnlyGrowsByWholeBytes := by
  intro s t hr h
  have htaken := step_popped_prefix hr h
  rcases (step_effect hr h).stream_cases with ⟨hst, hno⟩ | ⟨⟨v, hst⟩, hshift⟩
  · exact ⟨[], by rw [hst, List.append_nil], Nat.zero_le _, htaken, iff_of_false (by simp) hno⟩
  · exact ⟨[v], hst, le_rfl, htaken, iff_of_true (by simp) hshift⟩

/-! ## Two runs of one transaction -/

theorem sameFsm_iff {s t : State} : SameFsm s t ↔ regs s = regs t ∧ s.cfg = t.cfg := by
  simp only [SameFsm, regs, Prod.mk.injEq, and_assoc]

/-- What SHIFTIN leaves in the registers depends on the registers alone. -/
theorem shiftIn_regs {b : Bool} {s u : State} (h : shiftIn b s = .next u) :
    regs u = (if s.bitcnt = 39 then (.idle, 0, 0, 0)
      else (s.state, s.cnt, s.bitcnt + 1, if s.bitcnt.toNat % 8 = 7 then 0 else shifted s.shreg b)) ∧
    u.cfg = s.cfg := by
  rcases shiftIn_cases h with ⟨hp, rfl⟩ | ⟨hp, h39, -, rfl⟩ | ⟨h39, -, rfl⟩
  · have h39 : s.bitcnt ≠ 39 := fun h39 => hp (by rw [h39]; rfl)
    rw [if_neg h39, if_neg hp]; exact ⟨rfl, rfl⟩
  · rw [if_neg h39, if_pos hp]; exact ⟨rfl, rfl⟩
  · rw [if_pos h39]; exact ⟨rfl, rfl⟩

section
variable {s s' t t' : State}

theorem shiftIn_sameFsm {b : Bool} (hsame : SameFsm s s') (h : shiftIn b s = .next t)
    (h' : shiftIn b s' = .next t') : SameFsm t t' := by
  obtain ⟨hregs, hcfg⟩ := shiftIn_regs h
  obtain ⟨hregs', hcfg'⟩ := shiftIn_regs h'
  obtain ⟨hs, hc, hb, hv, hk⟩ := hsame
  rw [sameFsm_iff, hregs, hregs', hcfg, hcfg', hs, hc, hb, hv]
  exact ⟨rfl, hk⟩

/-- An operation inside a transaction writes the registers from the registers and the line. -/
theorem exec_sameFsm {op : Instr} (hpop : op ≠ .pop) (hstart : op ≠ .start) (hsame : SameFsm s s')
    (hl : s.now.lineI = s'.now.lineI) (h : exec op s = .next t) (h' : exec op s' = .next t') : SameFsm t t' := by
  obtain ⟨hs, hc, hb, hv, hk⟩ := hsame
  cases op
  case pop => exact absurd rfl hpop
  case start => exact absurd rfl hstart
  case sample =>
    simp only [exec, execSample, hl] at h h'
    exact shiftIn_sameFsm (s := (s.goto .bitWait).setCnt s.budget) (s' := (s'.goto .bitWait).setCnt s'.budget)
      ⟨rfl, congrArg Config.waitBudget hk, hb, hv, hk⟩ h h'
  case errFill => exact shiftIn_sameFsm ⟨hs, hc, hb, hv, hk⟩ h h'
  all_goals
    cases h
    cases h'
    simp [SameFsm, State.budget, State.settleLoad, hs, hc, hb, hv, hk]

theorem portDone_sameFsm (hsame : SameFsm s s') : SameFsm (portDone s) (portDone s') := by
  simpa only [SameFsm, portDone_state, portDone_cnt, portDone_bitcnt, portDone_shreg, portDone_cfg] using hsame

/-- Two ticks of one transaction with the same line and the same reset. -/
theorem step_sameFsm (hsame : SameFsm s s') (hbusy : s.state ≠ .idle) (hl : s.now.lineI = s'.now.lineI)
    (hrst : s.now.rst = s'.now.rst) (h : step s = .next t) (h' : step s' = .next t') : SameFsm t t' := by
  by_cases hr : s.now.rst = true
  · rw [step_of_rst hr] at h
    rw [step_of_rst (hrst ▸ hr)] at h'
    cases h; cases h'
    exact ⟨rfl, rfl, rfl, rfl, (sameFsm_iff.mp hsame).2⟩
  · have hr : s.now.rst = false := by simpa using hr
    obtain ⟨u, hu, rfl⟩ := step_eq_next h hr
    obtain ⟨u', hu', rfl⟩ := step_eq_next h' (hrst ▸ hr)
    have hop : opOf s'.state (acc s') (hit s') (tc s') = opOf s.state (acc s) (hit s) (tc s) := by
      obtain ⟨hs, hc, -⟩ := hsame
      rw [hit, tc, hit, tc, ← hs, ← hc, hl]
      exact opOf_acc_irrelevant hbusy _ _ _ _
    rw [hop] at hu'
    have hstart : opOf s.state (acc s) (hit s) (tc s) ≠ .start := fun h => hbusy (opOf_eq_start_iff.mp h).1
    show SameFsm u u'
    exact exec_sameFsm (opOf_ne_pop _ _ _ _) hstart (portDone_sameFsm hsame) (by simpa using hl) hu hu'

end

/-- Settles O43, by induction on the ticks: outside Idle the registers after a tick depend on the registers before it,
the line and the reset. -/
theorem hostCannotChangeARunningTransaction : Obligations.HostCannotChangeARunningTransaction := by
  intro n
  induction n with
  | zero => intro s s' t t' hsame _ _ h h'; cases h; cases h'; exact hsame
  | succ n ih =>
    intro s s' t t' hsame hports hbusy h h'
    rw [after_succ] at h h'
    obtain ⟨u, hu, h⟩ := andThen_eq_next h
    obtain ⟨u', hu', h'⟩ := andThen_eq_next h'
    obtain ⟨hl, hrst⟩ := hports 0 n.succ_pos
    refine ih u u' t t' (step_sameFsm hsame (afterHolds_zero.mp (hbusy 0 n.succ_pos)) hl hrst hu hu')
      (fun k hk => ?_) (fun k hk => (afterHolds_succ_of_step hu).mp (hbusy (k + 1) (by omega))) h h'
    rw [step_lineAt hu, step_lineAt hu', step_inputAt hu, step_inputAt hu']
    exact hports (k + 1) (by omega)

end Sys2Proof.Machine
end

section
/-! The statements on the length of a transaction (70_reset_and_hazards.md R179) and on one that samples nothing
(44_host_driver_contract.md R141). -/

namespace Sys2Proof.Machine

/-! ## How few ticks a transaction can have left

`left` bits are still to be shifted in, one tick each at least. A wait ends in time only by a hit for each of the coming
bits, with `S` ticks of settle delay, or by running down its counter into Error, whichever is shorter. -/

/-- The fewest ticks until the block is back in Idle. -/
def leastTicksLeft (s : State) : Nat :=
  let left := 40 - s.bitcnt.toNat
  let B := s.cfg.waitBudget.toNat
  let S := s.cfg.settleTicks.toNat
  match s.state with
  | .idle => 0
  | .trigger => max s.cnt.toNat 1 + left + min B (3 + left * S)
  | .awaitRise1 => left + min s.cnt.toNat (3 + left * S)
  | .awaitFall => left + min s.cnt.toNat (2 + left * S)
  | .awaitRise2 => left + min s.cnt.toNat (1 + left * S)
  | .bitWait => left + min s.cnt.toNat (left * S)
  | .settle => s.cnt.toNat + (left - 1) + min B ((left - 1) * S)
  | .error => left

section
variable {s t : State}

theorem leastTicksLeft_of_idle (h : s.state = .idle) : leastTicksLeft s = 0 := by rw [leastTicksLeft, h]

/-- A hit takes one tick off. -/
theorem leastTicksLeft_hit (hi : Inv s) (hw : isWait s.state = true)
    (hr : regs t = (hitNext s.state, hitLoad s.cfg s.state, s.bitcnt, s.shreg)) (hcfg : t.cfg = s.cfg) :
    leastTicksLeft s ≤ leastTicksLeft t + 1 := by
  obtain ⟨ht, hc, hb, -⟩ := regs_eq_iff.mp hr
  have hle := hi.ranges.bitcnt
  have hrange := (hi.ranges.wait hw).2
  obtain ⟨m, hm⟩ : ∃ m, 40 - s.bitcnt.toNat = m + 1 := ⟨39 - s.bitcnt.toNat, by omega⟩
  cases hs : s.state
  case awaitRise1 | awaitFall | awaitRise2 | bitWait =>
    simp only [leastTicksLeft, ht, hc, hb, hcfg, hs, hitNext, hitLoad, hm, Nat.add_one_mul, Nat.add_sub_cancel]
    omega
  all_goals rw [hs] at hw; cases hw

/-- A miss that is not the last, a tick of the low pulse or of the settle delay takes one tick off. -/
theorem leastTicksLeft_down (hs : s.state = .trigger ∨ s.state = .settle ∨ isWait s.state = true)
    (h1 : 1 < s.cnt.toNat) (hr : regs t = (s.state, s.cnt - 1, s.bitcnt, s.shreg)) (hcfg : t.cfg = s.cfg) :
    leastTicksLeft s ≤ leastTicksLeft t + 1 := by
  obtain ⟨ht, hc, hb, -⟩ := regs_eq_iff.mp hr
  have hpred := cnt_pred_toNat h1
  cases h : s.state
  case idle | error => simp [h, isWait] at hs
  all_goals
    simp only [leastTicksLeft, ht, hc, hb, hcfg, h, hpred]
    omega

/-- A timeout takes one tick off. -/
theorem leastTicksLeft_timeout (hw : isWait s.state = true) (hc : s.cnt.toNat ≤ 1)
    (hr : regs t = (.error, 0, s.bitcnt, s.shreg)) : leastTicksLeft s ≤ leastTicksLeft t + 1 := by
  obtain ⟨ht, -, hb, -⟩ := regs_eq_iff.mp hr
  cases hs : s.state
  case awaitRise1 | awaitFall | awaitRise2 | bitWait =>
    simp only [leastTicksLeft, ht, hb, hs]
    omega
  all_goals rw [hs] at hw; cases hw

/-- A shift before bit 39 takes one tick off. -/
theorem leastTicksLeft_shift {b : Bool} {c : Ctrl} {n : Word} {v : Byte} (hi : Inv s) (h : ShiftsIn s b c n)
    (hr : regs t = (c, n, s.bitcnt + 1, v)) (hcfg : t.cfg = s.cfg) : leastTicksLeft s ≤ leastTicksLeft t + 1 := by
  obtain ⟨ht, hc, hb, -⟩ := regs_eq_iff.mp hr
  have hsucc := bitcnt_succ_toNat hi.ranges.bitcnt
  have hleft : 40 - (s.bitcnt.toNat + 1) = 40 - s.bitcnt.toNat - 1 := by omega
  rcases h with ⟨hs, h1, -, rfl, rfl⟩ | ⟨hs, -, rfl, -⟩
  · simp only [leastTicksLeft, ht, hc, hb, hcfg, hs, hsucc, hleft]
    omega
  · simp only [leastTicksLeft, ht, hb, hs, hsucc]
    omega

/-- The last shift comes with one tick left. -/
theorem leastTicksLeft_last {b : Bool} {c : Ctrl} {n : Word} (h : ShiftsIn s b c n) (h39 : s.bitcnt = 39) :
    leastTicksLeft s ≤ 1 := by
  have hleft : 40 - s.bitcnt.toNat = 1 := by rw [h39]; rfl
  rcases h with ⟨hs, h1, -⟩ | ⟨hs, -⟩
  · simp only [leastTicksLeft, hs, hleft, Nat.sub_self, Nat.zero_mul]
    omega
  · simp only [leastTicksLeft, hs, hleft, le_refl]

/-- No tick takes more than one tick off. -/
theorem TickEffect.leastTicksLeft_le (e : TickEffect s t) (hi : Inv s) (hcfg : t.cfg = s.cfg) :
    leastTicksLeft s ≤ leastTicksLeft t + 1 := by
  cases e with
  | rest hs | start hs => rw [leastTicksLeft_of_idle hs]; exact Nat.zero_le _
  | down hs h1 hr => exact leastTicksLeft_down (hs.imp_right (.imp_right And.left)) h1 hr hcfg
  | release hs h1 hr =>
    obtain ⟨ht, hc, hb, -⟩ := regs_eq_iff.mp hr
    simp only [leastTicksLeft, ht, hc, hb, hcfg, hs]
    omega
  | hit hw _ hr => exact leastTicksLeft_hit hi hw hr hcfg
  | timeout hw _ hc hr => exact leastTicksLeft_timeout hw hc hr
  | inside _ _ _ hs _ hr | push _ _ _ hs _ _ hr => exact leastTicksLeft_shift hi hs hr hcfg
  | last _ _ _ hs h39 => exact (leastTicksLeft_last hs h39).trans (Nat.le_add_left 1 _)

/-- A run without reset takes off no more ticks than it has. -/
theorem leastTicksLeft_le_of_after {n : Nat} (hi : Inv s) (hn : NoReset n s) (h : after n s = .next t) :
    leastTicksLeft s ≤ leastTicksLeft t + n := by
  induction n generalizing s with
  | zero => cases h; exact le_rfl
  | succ n ih =>
    rw [after_succ] at h
    obtain ⟨u, hu, h⟩ := andThen_eq_next h
    have hfirst := (step_effect (noReset_now hn) hu).leastTicksLeft_le hi (step_cfg hu)
    have hrest := ih (inv_step hi hu) (noReset_step hn hu) h
    omega

/-- What START leaves to do at least: the low pulse, and 40 zeros after a timeout of the first wait, or three handshake
hits and 40 bits (70_reset_and_hazards.md R179). -/
theorem Starts.leastTicksLeft_eq (h : Starts s) (hstep : step s = .next t) :
    leastTicksLeft t =
      min (holdTicks s + s.cfg.waitBudget.toNat + 40) (holdTicks s + 43 + 40 * s.cfg.settleTicks.toNat) := by
  obtain ⟨hr, hs, hv, hf⟩ := h
  rw [step_start hr hs ((acc_iff s).mpr ⟨hv, hf⟩)] at hstep
  cases hstep
  show holdTicks s + 40 + min s.cfg.waitBudget.toNat (3 + 40 * s.cfg.settleTicks.toNat) = _
  omega

end

/-- Settles O41: the upper bound is that of O40; and in Idle no tick is left, of the least number that START leaves,
from which each tick has taken one off at most. -/
theorem transactionLengthIsBounded : Obligations.TransactionLengthIsBounded := by
  intro s hi hstarts hn
  obtain ⟨T, hT, hbusy, t, hends, hidle, -⟩ := transactionDeliversSamplesThenZeros s hi hstarts hn
  obtain ⟨u, hstep, -⟩ := hstarts.begins_transaction
  have hnT : NoReset (T + 1) s := noReset_mono hn (by omega)
  have hleast := leastTicksLeft_le_of_after (inv_step hi hstep) (noReset_step hnT hstep)
    ((after_succ_of_step hstep T).symm.trans hends)
  rw [leastTicksLeft_of_idle hidle, Nat.zero_add, hstarts.leastTicksLeft_eq hstep] at hleast
  exact ⟨T, hleast, hT, fun k h1 hk => (hbusy k h1 hk).imp fun u => (busy_iff u).mpr, t, hends, hidle⟩

/-- Settles O45: without a sample every bit of the five bytes is 0 (O40), and zero bytes have the checksum 0. -/
theorem emptyTransactionReadsAsPresent : Obligations.EmptyTransactionReadsAsPresent := by
  refine ⟨fun f h4 => by rw [f.valid_iff, h4]; rfl, fun s hi hstarts hn => ?_⟩
  obtain ⟨T, hT, hbusy, t, hends, hidle, bytes, hlen, hstream, -, hbits⟩ :=
    transactionDeliversSamplesThenZeros s hi hstarts hn
  refine ⟨T, hT, hbusy, t, hends, hidle, fun hnone => ⟨?_, by decide⟩⟩
  rw [hstream, eq_zeros_of_frameBit hlen fun i hi40 => by rw [hbits i hi40, hnone, List.getD_nil]]

end Sys2Proof.Machine
end

section
/-! The statement on the cell hazard (70_reset_and_hazards.md R176): when a stream of cells stays aligned. -/

namespace Sys2Proof.Machine

/-- A run from a state has one end: what holds after it is a claim on that end. -/
theorem afterHolds_of_after {n : Nat} {s t : State} {P : State → Prop} (h : after n s = .next t) :
    AfterHolds n s P ↔ P t :=
  ⟨fun ⟨u, hu, hp⟩ => by rw [h] at hu; cases hu; exact hp, fun hp => ⟨t, h, hp⟩⟩

theorem after_lineAt {n : Nat} {s t : State} (h : after n s = .next t) (k : Nat) : t.lineAt k = s.lineAt (n + k) := by
  induction n generalizing s with
  | zero => cases h; rw [Nat.zero_add]
  | succ n ih =>
    rw [after_succ] at h
    obtain ⟨u, hu, h⟩ := andThen_eq_next h
    rw [ih h, step_lineAt hu, Nat.add_right_comm]

section
variable {s t : State}

/-- BitWait seen low after `h` high ticks, within its counter, executes BIT.HIT there. -/
theorem bitHit_after_misses {h : Nat} (hs : s.state = .bitWait) (hh : h < s.cnt.toNat) (hn : NoReset (h + 1) s)
    (hhigh : ∀ j, j < h → s.lineAt j = true) (hlow : s.lineAt h = false) :
    AfterHolds h s fun u => Runs .bitHit u ∧ u.bitcnt = s.bitcnt := by
  have htgt : tgt s.state = false := by rw [hs]; rfl
  obtain ⟨u, hu, hstate, -, hbit, -⟩ := wait_goes_on (by rw [hs]; rfl) hh (noReset_mono hn h.le_succ) fun j hj => by
    rw [htgt, hhigh j hj]; decide
  have hr : u.now.rst = false := noReset_now (noReset_after hn hu)
  exact ⟨u, hu, ⟨hr, fsmOp_eq_bitHit_iff.mpr ⟨hstate.trans hs, by rw [after_now hu]; exact hlow⟩⟩, hbit⟩

/-- BitWait seen high on all the ticks of its counter executes BIT.TIMEOUT on the last of them. -/
theorem bitTimeout_after_misses {k : Nat} (hs : s.state = .bitWait) (hk : s.cnt.toNat = k + 1) (hn : NoReset (k + 1) s)
    (hhigh : ∀ j, j ≤ k → s.lineAt j = true) :
    AfterHolds k s fun u => Runs .bitTimeout u ∧ u.bitcnt = s.bitcnt := by
  have htgt : tgt s.state = false := by rw [hs]; rfl
  obtain ⟨u, hu, hstate, hcnt, hbit, -⟩ :=
    wait_goes_on (by rw [hs]; rfl) (by omega) (noReset_mono hn k.le_succ) fun j hj => by
      rw [htgt, hhigh j hj.le]; decide
  have hr : u.now.rst = false := noReset_now (noReset_after hn hu)
  have hop : fsmOp u = some (timeoutOp .bitWait) := (fsmOp_eq_timeoutOp_iff rfl).mpr
    ⟨hstate.trans hs, by rw [after_now hu]; exact hhigh k le_rfl, by omega⟩
  exact ⟨u, hu, ⟨hr, hop⟩, hbit⟩

/-- After a BIT.HIT of a bit before the last BitWait begins again `S + 1` ticks on. -/
theorem bitWait_after_bitHit (h : Runs .bitHit s) (hi : Inv s) (h39 : s.bitcnt ≠ 39)
    (hn : NoReset (s.cfg.settleTicks.toNat + 1) s) :
    AfterHolds (s.cfg.settleTicks.toNat + 1) s fun t =>
      t.state = .bitWait ∧ t.cnt = s.cfg.waitBudget ∧ t.bitcnt = s.bitcnt + 1 := by
  obtain ⟨-, -, hafter⟩ := sampleFallsSettleTicksAfterTheHit s h hi.config hn
  refine (hafter hi).imp fun t ⟨hmore, _⟩ => ?_
  obtain ⟨hs, hc, hb, -⟩ := hmore h39
  exact ⟨hs, hc, hb⟩

end

section
variable {s : State} {d L w : Nat} (h : Runs .bitHit s) (hi : Inv s)
include h hi

/-- The sample's level is that of the line at tick `S`. -/
theorem sample_reads_iff (hn : NoReset (s.cfg.settleTicks.toNat + 1) s) (b : Bool) :
    AfterHolds s.cfg.settleTicks.toNat s (fun u => Runs .sample u ∧ u.now.lineI = b) ↔
      s.lineAt s.cfg.settleTicks.toNat = b := by
  obtain ⟨u, hu, hop, hl, -, -⟩ := samples_after_bitHit h hi.config hn
  rw [afterHolds_of_after hu, hl]
  exact and_iff_right hop

variable (h39 : s.bitcnt ≠ 39)
include h39

/-- After the sample the next BIT.HIT is on the first low tick, if that comes within `B` polls. -/
theorem next_bitHit {k : Nat} (hk : k < s.cfg.waitBudget.toNat) (hn : NoReset (s.cfg.settleTicks.toNat + 1 + k + 1) s)
    (hhigh : ∀ j, j < k → s.lineAt (s.cfg.settleTicks.toNat + 1 + j) = true)
    (hlow : s.lineAt (s.cfg.settleTicks.toNat + 1 + k) = false) :
    AfterHolds (s.cfg.settleTicks.toNat + 1 + k) s fun u => Runs .bitHit u ∧ u.bitcnt = s.bitcnt + 1 := by
  obtain ⟨t, ht, hs, hc, hb⟩ := bitWait_after_bitHit h hi h39 (noReset_mono hn (by omega))
  refine afterHolds_add ht (hb ▸ bitHit_after_misses hs (by rwa [hc]) (noReset_after (by rwa [← Nat.add_assoc]) ht)
    (fun j hj => ?_) ?_)
  · rw [after_lineAt ht]; exact hhigh j hj
  · rw [after_lineAt ht]; exact hlow

/-- After the sample a line that stays high for `B` polls times out on the last of them. -/
theorem next_bitTimeout (hn : NoReset (s.cfg.settleTicks.toNat + s.cfg.waitBudget.toNat + 1) s)
    (hhigh : ∀ j, j < s.cfg.waitBudget.toNat → s.lineAt (s.cfg.settleTicks.toNat + 1 + j) = true) :
    AfterHolds (s.cfg.settleTicks.toNat + s.cfg.waitBudget.toNat) s fun u =>
      Runs .bitTimeout u ∧ u.bitcnt = s.bitcnt + 1 := by
  have hB : 1 ≤ s.cfg.waitBudget.toNat := (loads_pos_of_wf hi.config).1
  obtain ⟨k, hk⟩ : ∃ k, s.cfg.waitBudget.toNat = k + 1 := ⟨s.cfg.waitBudget.toNat - 1, by omega⟩
  have htick : s.cfg.settleTicks.toNat + s.cfg.waitBudget.toNat = s.cfg.settleTicks.toNat + 1 + k := by omega
  rw [htick] at hn ⊢
  obtain ⟨t, ht, hs, hc, hb⟩ := bitWait_after_bitHit h hi h39 (noReset_mono hn (by omega))
  refine afterHolds_add ht (hb ▸ bitTimeout_after_misses hs (by rw [hc, hk])
    (noReset_after (by rwa [← Nat.add_assoc]) ht) fun j hj => ?_)
  rw [after_lineAt ht]
  exact hhigh j (by omega)

end

/-- Settles O38: the waveform gives the level at tick `S`, which is sampled, and those of the polls from tick `S + 1`
on, which count to the next cell's first low tick or to the last poll. -/
theorem cellsAreCaughtAsStated : Obligations.CellsAreCaughtAsStated := by
  intro s d L w h hi h39 hd hw S B
  refine ⟨fun hn hcell hlt => ?_, fun hn hcell h1 h2 => ⟨fun hB => ?_, fun hB => ?_⟩, fun hn hcell => ?_⟩
  · rw [sample_reads_iff h hi hn, hcell S le_rfl hlt, decide_eq_true_iff]
    omega
  · obtain ⟨k, hk⟩ : ∃ k, L + w - d = S + 1 + k := ⟨L + w - d - (S + 1), by omega⟩
    rw [hk] at hn hcell ⊢
    refine next_bitHit h hi h39 (show k < B by omega) hn (fun j hj => ?_) ?_
    · rw [hcell _ (by omega) (by omega), decide_eq_true_iff]; omega
    · rw [hcell _ le_rfl (by omega), decide_eq_false_iff_not]; omega
  · refine next_bitTimeout h hi h39 (noReset_mono hn (show S + B + 1 ≤ _ by omega)) fun j hj => ?_
    have hj : j < B := hj
    rw [hcell _ (show S + 1 + j ≤ _ by omega) (show d + (S + 1 + j) < _ by omega), decide_eq_true_iff]
    omega
  · rw [sample_reads_iff h hi (noReset_mono hn (by omega))]
    constructor
    · rintro ⟨hlow, -, hafter, hbefore⟩
      rw [hcell S (by omega) (by omega), decide_eq_false_iff_not] at hlow
      omega
    · intro hin
      have hB : 0 < B := (loads_pos_of_wf hi.config).1
      have hS : s.lineAt S = false := by
        rw [hcell S (by omega) (by omega), decide_eq_false_iff_not]; omega
      have hnext : s.lineAt (S + 1) = false := by
        rw [hcell (S + 1) le_rfl (by omega), decide_eq_false_iff_not]; omega
      exact ⟨hS, next_bitHit (k := 0) h hi h39 hB hn (fun j hj => absurd hj j.not_lt_zero) hnext,
        by omega, by omega⟩

end Sys2Proof.Machine
end

section
/-! The statement on the driver's `read()` (44_host_driver_contract.md R131, R134): the block and the driver, ticking
together, come to the five bytes of the transaction. -/

namespace Sys2Proof.Machine

/-! ## Frames and the driver -/

/-- A frame is read from exactly five bytes (R134). -/
theorem Frame.ofBytes_of_length {bytes : List Byte} (h : bytes.length = 5) :
    ∃ f, Frame.ofBytes bytes = some f ∧ f.bytes = bytes := by
  match bytes, h with
  | [b0, b1, b2, b3, b4], _ => exact ⟨⟨b0, b1, b2, b3, b4⟩, rfl, rfl⟩

theorem Frame.ofBytes_eq_none {bytes : List Byte} (h : bytes.length ≠ 5) : Frame.ofBytes bytes = none := by
  unfold Frame.ofBytes
  split
  · exact absurd rfl h
  · rfl

section
variable {d : Driver} {s : State} {taken : List Byte}

theorem Driver.next_of_requesting (hd : d.phase = .requesting) (hs : reqReady s = true) :
    (d.next s).phase = .collecting [] := by
  rw [Driver.next, hd]; exact congrArg Driver.phase (if_pos hs)

/-- A driver that sees one byte at most takes all there is, up to the fourth byte. -/
theorem Driver.next_of_fewer (hd : d.phase = .collecting taken) (hone : s.fifo.length ≤ 1)
    (hlen : taken.length + s.fifo.length < 5) : (d.next s).phase = .collecting (taken ++ s.fifo) := by
  rw [Driver.next, hd]
  match hf : s.fifo with
  | [] =>
    have hv : outValid s = false := by simp [outValid, State.fifoCnt, hf]
    simp [hv, hd]
  | [b] =>
    have hv : outValid s = true := by simp [outValid, State.fifoCnt, hf]
    have hnone : Frame.ofBytes (taken ++ [b]) = none := Frame.ofBytes_eq_none (by simp [hf] at hlen ⊢; omega)
    simp [hv, outByte_of_cons hf, hnone]
  | b :: c :: rest => simp [hf] at hone

/-- The fifth byte completes the frame. -/
theorem Driver.next_of_fifth (hd : d.phase = .collecting taken) (hone : s.fifo.length = 1)
    (hlen : taken.length + s.fifo.length = 5) :
    ∃ f, (d.next s).phase = .finished f ∧ f.bytes = taken ++ s.fifo := by
  obtain ⟨f, hof, hbytes⟩ := Frame.ofBytes_of_length (bytes := taken ++ s.fifo) (by simpa using hlen)
  obtain ⟨b, hf⟩ := List.length_eq_one_iff.mp hone
  have hv : outValid s = true := by simp [outValid, State.fifoCnt, hf]
  refine ⟨f, ?_, hbytes⟩
  rw [hf] at hof
  rw [Driver.next, hd]
  simp [hv, outByte_of_cons hf, hof]

end

/-! ## One tick of the block and the driver -/

/-- The block of a station under the driver's ports. -/
def Station.presented (y : Station) (l : Level) : State := y.block.withNow (y.driver.ports l)

section
variable {y z : Station} {l : Level} {s : State}

theorem Station.presented_rst : (y.presented l).now.rst = false := by
  show (y.driver.ports l).rst = false
  unfold Driver.ports
  split <;> rfl

theorem Station.tick_of_step (h : step (y.presented l) = .next s) :
    y.tick l = .next ⟨s, y.driver.next y.block⟩ := by
  rw [Station.presented] at h
  rw [Station.tick, h]

theorem Station.run_cons_of_tick (h : y.tick l = .next z) (ls : List Level) :
    Station.run (l :: ls) y = Station.run ls z := by
  rw [Station.run, h]

theorem Station.presented_of_requesting (hd : y.driver.phase = .requesting) :
    y.presented l = y.block.withNow ⟨false, l, true, y.driver.cfg.triggerTicks, false⟩ := by
  rw [Station.presented, Driver.ports, hd]

theorem Station.presented_of_collecting {taken : List Byte} (hd : y.driver.phase = .collecting taken) :
    y.presented l = y.block.withNow ⟨false, l, false, 0, true⟩ := by
  rw [Station.presented, Driver.ports, hd]

theorem Station.presented_of_finished {f : Frame} (hd : y.driver.phase = .finished f) :
    y.presented l = y.block.withNow ⟨false, l, false, 0, false⟩ := by
  rw [Station.presented, Driver.ports, hd]

end

/-- A POP leaves no byte behind where one at most was waiting. -/
theorem portDone_drains {s : State} (ho : s.now.outReady = true) (hone : s.fifo.length ≤ 1) :
    (portDone s).fifo = [] := by
  rw [portDone, ho, Bool.and_true]
  split
  · rw [fifoPop_fifo]
    exact List.eq_nil_of_length_eq_zero (by rw [List.length_tail]; omega)
  · rename_i hv
    exact List.eq_nil_of_length_eq_zero (Nat.eq_zero_of_not_pos fun h => hv ((outValid_iff s).mpr h))

/-- There the host has then taken the whole stream. -/
theorem portDone_takes_stream {s : State} (ho : s.now.outReady = true) (hone : s.fifo.length ≤ 1) :
    (portDone s).popped.map Prod.snd = stream s := by
  rw [← stream_portDone, stream, portDone_drains ho hone, List.append_nil]

/-! ## The stages of a `read()` -/

/-- The driver is done with the frame `f`, and the block rests drained in Idle. `before` are the bytes taken before the
`read()`. -/
structure Station.Finished (before : List Byte) (f : Frame) (y : Station) : Prop where
  phase : y.driver.phase = .finished f
  idle : y.block.state = .idle
  drained : y.block.fifo = []
  popped : y.block.popped.map Prod.snd = before ++ f.bytes

/-- The driver has taken the bytes `taken` of a transaction, and those pushed besides, one at most, wait in the FIFO. -/
structure Station.Collecting (before taken : List Byte) (y : Station) : Prop where
  inv : Inv y.block
  phase : y.driver.phase = .collecting taken
  popped : y.block.popped.map Prod.snd = before ++ taken
  count : taken.length + y.block.fifo.length = bytesDone y.block
  waiting : y.block.fifo.length ≤ 1
  unfinished : taken.length < 5

section
variable {before taken : List Byte} {f : Frame} {y : Station}

/-- After the `read()` nothing more happens. -/
theorem Station.Finished.tick (h : y.Finished before f) (l : Level) :
    ∃ z, y.tick l = .next z ∧ z.Finished before f := by
  have hports := Station.presented_of_finished (l := l) h.phase
  have hstep : step (y.presented l) = .next (y.presented l).advance := by
    rw [step_idle Station.presented_rst h.idle (by rw [hports]; rfl), portDone_of_not_outReady (by rw [hports]; rfl)]
  have hphase : (y.driver.next y.block).phase = .finished f := by rw [Driver.next, h.phase]; exact h.phase
  exact ⟨_, Station.tick_of_step hstep, hphase, h.idle, h.drained, h.popped⟩

theorem Station.Finished.run (h : y.Finished before f) (ls : List Level) :
    ∃ z, Station.run ls y = .next z ∧ z.Finished before f := by
  induction ls generalizing y with
  | nil => exact ⟨y, rfl, h⟩
  | cons l ls ih =>
    obtain ⟨z, hz, hfin⟩ := h.tick l
    obtain ⟨z', hrun, hfin'⟩ := ih hfin
    exact ⟨z', (Station.run_cons_of_tick hz ls).trans hrun, hfin'⟩

theorem Station.Collecting.stream_eq (h : y.Collecting before taken) (l : Level) :
    stream (y.presented l) = before ++ (taken ++ y.block.fifo) := by
  rw [← List.append_assoc, ← h.popped]; rfl

/-- In Idle the fifth byte waits in the FIFO, and the driver takes it. -/
theorem Station.Collecting.tick_of_idle (h : y.Collecting before taken) (hs : y.block.state = .idle) (l : Level) :
    ∃ z f, y.tick l = .next z ∧ z.Finished before f := by
  have hports := Station.presented_of_collecting (l := l) h.phase
  have ho : (y.presented l).now.outReady = true := by rw [hports]; rfl
  have hstep := step_idle (s := y.presented l) Station.presented_rst hs (by rw [hports]; rfl)
  have hfive : bytesDone y.block = 5 := if_pos hs
  have hall : taken.length + y.block.fifo.length = 5 := h.count.trans hfive
  have hone : y.block.fifo.length = 1 := by
    have hwaiting := h.waiting
    have hunfinished := h.unfinished
    omega
  obtain ⟨f, hphase, hbytes⟩ := Driver.next_of_fifth (s := y.block) h.phase hone hall
  refine ⟨_, f, Station.tick_of_step hstep, hphase, (portDone_state _).trans hs, portDone_drains ho h.waiting, ?_⟩
  show (portDone (y.presented l)).popped.map Prod.snd = _
  rw [portDone_takes_stream ho h.waiting, h.stream_eq, hbytes]

/-- While the transaction runs, the driver takes the byte that waits, and the block pushes one at most. -/
theorem Station.Collecting.tick_of_running (h : y.Collecting before taken) (hs : y.block.state ≠ .idle) (l : Level) :
    ∃ z taken', y.tick l = .next z ∧ z.Collecting before taken' ∧ ticksLeft z.block < ticksLeft y.block := by
  have hinv : Inv (y.presented l) := inv_withNow h.inv _
  have hr : (y.presented l).now.rst = false := Station.presented_rst
  have ho : (y.presented l).now.outReady = true := by rw [Station.presented_of_collecting h.phase]; rfl
  obtain ⟨t, ht⟩ := hinv.step_next
  have e := step_effect hr ht
  obtain ⟨pushed, hpushes⟩ := e.pushes hr hinv hs
  obtain ⟨pushed', hstream, hone, -⟩ := streamOnlyGrowsByWholeBytes _ _ hr ht
  obtain rfl : pushed = pushed' := List.append_cancel_left (hpushes.stream_eq.symm.trans hstream)
  have htaken : t.popped.map Prod.snd = stream (y.presented l) := by
    rw [step_popped hr ht, portDone_takes_stream ho h.waiting]
  have hfifo : t.fifo = pushed := by
    rw [stream, htaken] at hstream
    exact List.append_cancel_left hstream
  have hfew : taken.length + y.block.fifo.length < 5 := by
    have hbits := h.inv.ranges.bitcnt
    rw [h.count, bytesDone, if_neg hs]; omega
  have hcount : bytesDone t = bytesDone y.block + pushed.length := hpushes.count
  refine ⟨_, taken ++ y.block.fifo, Station.tick_of_step ht, {
    inv := inv_step hinv ht
    phase := Driver.next_of_fewer h.phase h.waiting hfew
    popped := htaken.trans (h.stream_eq l)
    count := ?_
    waiting := ?_
    unfinished := ?_ }, e.ticksLeft_lt hinv hs (step_cfg ht)⟩
  · rw [hfifo, hcount, ← h.count, List.length_append]
  · rwa [hfifo]
  · rwa [List.length_append]

/-- The driver is done one tick after the block is back in Idle. -/
theorem Station.Collecting.run {ls : List Level} (h : y.Collecting before taken)
    (hlen : ticksLeft y.block < ls.length) : ∃ z f, Station.run ls y = .next z ∧ z.Finished before f := by
  induction ls generalizing y taken with
  | nil => exact absurd hlen (Nat.not_lt_zero _)
  | cons l ls ih =>
    rw [List.length_cons] at hlen
    by_cases hs : y.block.state = .idle
    · obtain ⟨z, f, hz, hfin⟩ := h.tick_of_idle hs l
      obtain ⟨z', hrun, hfin'⟩ := hfin.run ls
      exact ⟨z', f, (Station.run_cons_of_tick hz ls).trans hrun, hfin'⟩
    · obtain ⟨z, taken', hz, hcoll, hlt⟩ := h.tick_of_running hs l
      obtain ⟨z', f, hrun, hfin⟩ := ih hcoll (by omega)
      exact ⟨z', f, (Station.run_cons_of_tick hz ls).trans hrun, hfin⟩

/-- The first tick of a `read()` on a drained block executes START. -/
theorem Station.tick_of_requesting (hi : Inv y.block) (hs : y.block.state = .idle) (hf : y.block.fifo = [])
    (hd : y.driver.phase = .requesting) (l : Level) :
    ∃ z, y.tick l = .next z ∧ z.Collecting (y.block.popped.map Prod.snd) [] ∧
      ticksLeft z.block = max y.driver.cfg.triggerTicks.toNat 1 + 43 * y.block.cfg.waitBudget.toNat +
        40 * y.block.cfg.settleTicks.toNat := by
  have hports := Station.presented_of_requesting (l := l) hd
  have hinv : Inv (y.presented l) := inv_withNow hi _
  have hstep := step_start (s := y.presented l) Station.presented_rst hs
    ((acc_iff _).mpr ⟨by rw [hports]; rfl, hf⟩)
  have hready : reqReady y.block = true := (reqReady_iff _).mpr ⟨hs, by rw [hf]; rfl⟩
  refine ⟨_, Station.tick_of_step hstep, {
    inv := inv_step hinv hstep
    phase := Driver.next_of_requesting hd hready
    popped := (List.append_nil _).symm
    count := by simp [bytesDone, Station.presented, hf]
    waiting := (congrArg List.length hf).trans_le (Nat.zero_le 1)
    unfinished := Nat.zero_lt_succ 4 }, ?_⟩
  rw [hports]
  exact (Nat.add_assoc _ _ _).symm

end

/-- Settles O46: START begins the transaction, the driver takes each byte on the tick after its push, and the fifth on
the tick after the return to Idle. -/
theorem readEndsWithTheFrame : Obligations.ReadEndsWithTheFrame := by
  intro y ls hi hs hf hd hlen
  obtain ⟨l, ls, rfl⟩ : ∃ l rest, ls = l :: rest := List.exists_cons_of_length_pos (by omega)
  obtain ⟨z, hz, hcoll, hleft⟩ := Station.tick_of_requesting hi hs hf hd l
  rw [List.length_cons] at hlen
  obtain ⟨z', f, hrun, hfin⟩ := hcoll.run (ls := ls) (by omega)
  refine ⟨z', f, (Station.run_cons_of_tick hz ls).trans hrun, hfin.phase, hfin.popped, hfin.idle, hfin.drained, ?_⟩
  rw [Driver.result, hfin.phase]

end Sys2Proof.Machine
end
